-- ==== Sys2Proof/Word.lean ====
section
/-! DEFINITION. The machine's words: a byte of work memory and a 32-bit host register (00_scope.md R7, R8). -/

namespace Sys2Proof

/-- A byte, bit 0 the least significant (00_scope.md R8). -/
abbrev Byte := BitVec 8

/-- A host register or command word, 32 bits (00_scope.md R7, 30_encoding.md R80). -/
abbrev Word := BitVec 32

/-- A byte offset in the 1024-byte host register space (10_state.md R22). -/
abbrev Offset := BitVec 10

end Sys2Proof
end

