-- ==== Sys2Proof/Config.lean ====
section
/-! DEFINITION. The build parameters of an instance (00_scope.md R7; 92_eei_decisions.md, OPEN parameters).
They are arguments of the model: every `State` carries the `Config` it was built with, and no step changes it. -/

namespace Sys2Proof

/-- NUM_SLOTS, 1 to 4 (decision D8). -/
inductive SlotCount where
  | one
  | two
  | three
  | four
deriving DecidableEq, Repr

def SlotCount.toNat : SlotCount → Nat
  | .one => 1
  | .two => 2
  | .three => 3
  | .four => 4

/-- B64_ALPHABET: the alphabet of the codec and of the token (42_codec.md R141, decision D16). -/
inductive B64Alphabet where
  | url
  | std
deriving DecidableEq, Repr

/-- WM_RESET: the contents of work memory after the reset event (70_reset_and_hazards.md R250). -/
inductive WmReset where
  | unwritten
  | zero
  | keep
deriving DecidableEq, Repr

/-- The build parameters. ENTROPY, the one parameter that is consumed, is `State.entropy`; LATENCY is not
observable (93_implementation_defined.md U10). -/
structure Config where
  slotCount : SlotCount
  alphabet : B64Alphabet
  /-- COMPONENT_CMDS_ENABLED (30_encoding.md R85). -/
  componentCmds : Bool
  wmReset : WmReset
deriving DecidableEq, Repr

/-- The defaults of 00_scope.md R7. -/
def Config.default : Config :=
  { slotCount := .four, alphabet := .url, componentCmds := true, wmReset := .unwritten }

def Config.numSlots (c : Config) : Nat := c.slotCount.toNat

end Sys2Proof
end

