-- ==== Sys2Proof/Syntax.lean ====
section
/-! DEFINITION. The nine commands of 30_encoding.md R82, one constructor per row of spec/opcode_table.json.
Operands are exact integers (00_scope.md R9); `Instr.wellFormed` says which of them the command word can hold. -/

namespace Sys2Proof

inductive Instr where
  /-- EXPAND s<slot> (40_key_schedule.md R105). -/
  | expand (slot : Nat)
  /-- CLEAR s<slot> (40_key_schedule.md R106). -/
  | clear (slot : Nat)
  /-- ENCRYPT s<slot>, src, dst (41_cipher.md R130). -/
  | encrypt (slot src dst : Nat)
  /-- B64ENC src, dst, n (42_codec.md R148). -/
  | b64enc (src dst n : Nat)
  /-- B64DEC src, dst, n (42_codec.md R149). -/
  | b64dec (src dst n : Nat)
  /-- HEXENC src, dst, n (42_codec.md R150). -/
  | hexenc (src dst n : Nat)
  /-- HEXDEC src, dst, n; `strict` is the S bit, the form HEXDEC.S (42_codec.md R151). -/
  | hexdec (strict : Bool) (src dst n : Nat)
  /-- MINT s<slot> (43_token_minter.md R182). -/
  | mint (slot : Nat)
  /-- VALIDATE s<slot> (44_token_validator.md R200). -/
  | validate (slot : Nat)
deriving DecidableEq, Repr

/-- The component commands (00_scope.md R14), which exist only when COMPONENT_CMDS_ENABLED = 1. -/
def Instr.isComponent : Instr → Bool
  | .expand _ => false
  | .clear _ => false
  | .encrypt _ _ _ => true
  | .b64enc _ _ _ => true
  | .b64dec _ _ _ => true
  | .hexenc _ _ _ => true
  | .hexdec _ _ _ _ => true
  | .mint _ => false
  | .validate _ => false

end Sys2Proof
end

