-- ==== Sys2Proof/WellFormed.lean ====
section
/-! DEFINITION. Which operands a command word can hold: the checks an assembler makes (30_encoding.md R88).
Its fourth refusal, `.S` on a mnemonic other than HEXDEC, is a term that `Instr` cannot express. -/

namespace Sys2Proof

/-- A slot is s0 to s3. -/
def slotFits (slot : Nat) : Bool := decide (slot < 4)

/-- A src or dst is 0 to 511. -/
def addrFits (a : Nat) : Bool := decide (a < 512)

/-- An n is 0 to 63. -/
def countFits (n : Nat) : Bool := decide (n < 64)

def Instr.wellFormed : Instr → Bool
  | .expand slot => slotFits slot
  | .clear slot => slotFits slot
  | .encrypt slot src dst => slotFits slot && addrFits src && addrFits dst
  | .b64enc src dst n => addrFits src && addrFits dst && countFits n
  | .b64dec src dst n => addrFits src && addrFits dst && countFits n
  | .hexenc src dst n => addrFits src && addrFits dst && countFits n
  | .hexdec _ src dst n => addrFits src && addrFits dst && countFits n
  | .mint slot => slotFits slot
  | .validate slot => slotFits slot

end Sys2Proof
end

