-- ==== Sys2Proof/Decode.lean ====
section
/-! DEFINITION. The command word: its fields, the decoder of 30_encoding.md R87, the encoder of R88, and the
match and mask rows of R82. -/

namespace Sys2Proof

/-- The bit field of `w` from bit `lo`, `len` bits, as an unsigned integer (30_encoding.md R81). -/
def wordField (w : Word) (lo len : Nat) : Nat := (w.extractLsb' lo len).toNat

def fieldOp (w : Word) : Nat := wordField w 0 4
def fieldSlot (w : Word) : Nat := wordField w 4 2
def fieldS (w : Word) : Nat := wordField w 6 1
def fieldRsv (w : Word) : Nat := wordField w 7 1
def fieldSrc (w : Word) : Nat := wordField w 8 9
def fieldDst (w : Word) : Nat := wordField w 17 9
def fieldN (w : Word) : Nat := wordField w 26 6

/-- Why a word is illegal (30_encoding.md R84). Every reason raises the same IllegalCommand. -/
inductive IllegalWord where
  /-- Bit 7 is 1 (R83). -/
  | reservedBit
  /-- OP is 0x0 or 0xA to 0xF. -/
  | opcode
  /-- A field the opcode does not use is not zero (R83). -/
  | reservedField
  /-- A component opcode with COMPONENT_CMDS_ENABLED = 0 (R85). -/
  | componentDisabled
deriving DecidableEq, Repr

inductive Decoded where
  | instr (i : Instr)
  | illegal (why : IllegalWord)
deriving DecidableEq, Repr

/-- Accept `i` when the fields its opcode does not use are zero. -/
def decodeIf (reservedZero : Bool) (i : Instr) : Decoded :=
  if reservedZero then .instr i else .illegal .reservedField

/-- The same for a component opcode, which must also exist in this build (30_encoding.md R85). -/
def decodeComponentIf (cfg : Config) (reservedZero : Bool) (i : Instr) : Decoded :=
  if cfg.componentCmds then decodeIf reservedZero i else .illegal .componentDisabled

/-- The decoder of 30_encoding.md R87, total on all words. -/
def decode (cfg : Config) (w : Word) : Decoded :=
  let slot := fieldSlot w
  let src := fieldSrc w
  let dst := fieldDst w
  let n := fieldN w
  let slotOnly := fieldS w == 0 && src == 0 && dst == 0 && n == 0
  let codecOnly := slot == 0 && fieldS w == 0
  if fieldRsv w != 0 then .illegal .reservedBit
  else match fieldOp w with
    | 1 => decodeIf slotOnly (.expand slot)
    | 2 => decodeIf slotOnly (.clear slot)
    | 3 => decodeComponentIf cfg (fieldS w == 0 && n == 0) (.encrypt slot src dst)
    | 4 => decodeComponentIf cfg codecOnly (.b64enc src dst n)
    | 5 => decodeComponentIf cfg codecOnly (.b64dec src dst n)
    | 6 => decodeComponentIf cfg codecOnly (.hexenc src dst n)
    | 7 => decodeComponentIf cfg (slot == 0) (.hexdec (fieldS w == 1) src dst n)
    | 8 => decodeIf slotOnly (.mint slot)
    | 9 => decodeIf slotOnly (.validate slot)
    | _ => .illegal .opcode

/-- The one format of 30_encoding.md R80, fields from bit 31 down: N, DST, SRC, 0, S, SLOT, OP. -/
def packWord (op slot strict src dst n : Nat) : Word :=
  BitVec.ofNat 6 n ++ BitVec.ofNat 9 dst ++ BitVec.ofNat 9 src ++ 0#1 ++ BitVec.ofNat 1 strict ++
    BitVec.ofNat 2 slot ++ BitVec.ofNat 4 op

/-- The command word of a well-formed instruction (30_encoding.md R88). -/
def encode : Instr → Word
  | .expand slot => packWord 1 slot 0 0 0 0
  | .clear slot => packWord 2 slot 0 0 0 0
  | .encrypt slot src dst => packWord 3 slot 0 src dst 0
  | .b64enc src dst n => packWord 4 0 0 src dst n
  | .b64dec src dst n => packWord 5 0 0 src dst n
  | .hexenc src dst n => packWord 6 0 0 src dst n
  | .hexdec strict src dst n => packWord 7 0 strict.toNat src dst n
  | .mint slot => packWord 8 slot 0 0 0 0
  | .validate slot => packWord 9 slot 0 0 0 0

/-- The assembler: it refuses an operand outside its range (30_encoding.md R88). -/
def assemble (i : Instr) : Option Word := if i.wellFormed then some (encode i) else none

/-- One row of the opcode table: a word selects it when `w &&& mask = bits` (30_encoding.md R82). -/
structure OpcodeRow where
  bits : Word
  mask : Word
deriving DecidableEq, Repr

def OpcodeRow.selects (r : OpcodeRow) (w : Word) : Bool := w &&& r.mask == r.bits

/-- The match and mask row of an instruction's opcode (30_encoding.md R82). -/
def opcodeRow : Instr → OpcodeRow
  | .expand _ => ⟨0x00000001, 0xFFFFFFCF⟩
  | .clear _ => ⟨0x00000002, 0xFFFFFFCF⟩
  | .encrypt _ _ _ => ⟨0x00000003, 0xFC0000CF⟩
  | .b64enc _ _ _ => ⟨0x00000004, 0x000000FF⟩
  | .b64dec _ _ _ => ⟨0x00000005, 0x000000FF⟩
  | .hexenc _ _ _ => ⟨0x00000006, 0x000000FF⟩
  | .hexdec _ _ _ _ => ⟨0x00000007, 0x000000BF⟩
  | .mint _ => ⟨0x00000008, 0xFFFFFFCF⟩
  | .validate _ => ⟨0x00000009, 0xFFFFFFCF⟩

/-- The nine rows of 30_encoding.md R82, in the table's order. -/
def opcodeRows : List OpcodeRow :=
  [opcodeRow (.expand 0), opcodeRow (.clear 0), opcodeRow (.encrypt 0 0 0), opcodeRow (.b64enc 0 0 0),
    opcodeRow (.b64dec 0 0 0), opcodeRow (.hexenc 0 0 0), opcodeRow (.hexdec false 0 0 0),
    opcodeRow (.mint 0), opcodeRow (.validate 0)]

/-- The command word whose bits, up to `nbits`, are those of `w`; a command is one 32-bit word (30_encoding.md R86). -/
def tableWord (nbits w : Nat) : Word := BitVec.ofNat 32 (w % 2 ^ nbits)

/-- The instruction the decoder of a default build reads from a row's bits. -/
def decodeTableWord (nbits w : Nat) : Option Instr :=
  match decode Config.default (tableWord nbits w) with
  | .instr i => some i
  | .illegal _ => none

end Sys2Proof
end

