-- ==== Sys2Proof/Machine/State.lean ====
section
/-! DEFINITION. The state of the block and of the agents that drive it (00_scope.md R6, 10_state.md R38),
the reasons a step can stop, and the machine right after reset. -/

namespace Sys2Proof.Machine

/-- Four bytes, byte 0 first: a word of the key schedule (40_key_schedule.md R101), which is a column of the
cipher state (41_cipher.md R124). -/
structure Column where
  b0 : Byte
  b1 : Byte
  b2 : Byte
  b3 : Byte
deriving DecidableEq, Repr

/-- A 16-byte string as four columns: bytes 0 to 3 are `c0`, bytes 4 to 7 are `c1`, and so on (41_cipher.md R124). -/
structure Block where
  c0 : Column
  c1 : Column
  c2 : Column
  c3 : Column
deriving DecidableEq, Repr

def Column.zero : Column := ⟨0, 0, 0, 0⟩

def Block.zero : Block := ⟨.zero, .zero, .zero, .zero⟩

/-- The eleven round keys of a key schedule (10_state.md R33). -/
abbrev RoundKeys := Vector Block 11

def RoundKeys.zero : RoundKeys :=
  #v[.zero, .zero, .zero, .zero, .zero, .zero, .zero, .zero, .zero, .zero, .zero]

/-- A key slot: KEYV[s] and RK[s][0..10] (10_state.md R33). -/
structure KeySlot where
  valid : Bool
  rk : RoundKeys
deriving DecidableEq, Repr

/-- A slot as reset and CLEAR leave it: KEYV = 0 and every round key zero (10_state.md R38). -/
def KeySlot.empty : KeySlot := ⟨false, .zero⟩

/-- The store of key slots. It has room for the four slots the encoding can name; those at and above NUM_SLOTS
are absent and stay empty (10_state.md R29). DESIGN CHOICE, safe (log entry 15). -/
abbrev KeySlots := Vector KeySlot 4

def KeySlots.empty : KeySlots := #v[.empty, .empty, .empty, .empty]

/-- The work memory WM: the bytes written since reset, addresses strictly rising (10_state.md R30).
An address that is not listed has not been written since reset and holds no value
(70_reset_and_hazards.md R251). -/
structure Memory where
  cells : List Host.Cell
deriving DecidableEq, Repr

def Memory.empty : Memory := ⟨[]⟩

/-- Seven nonce bytes in the order received (60_exceptions.md R236). -/
structure Nonce where
  n0 : Byte
  n1 : Byte
  n2 : Byte
  n3 : Byte
  n4 : Byte
  n5 : Byte
  n6 : Byte
deriving DecidableEq, Repr

/-- The entropy source's answer to one request (60_exceptions.md R236). -/
inductive EntropyAnswer where
  | bytes (nonce : Nonce)
  | wait
  | fail
deriving DecidableEq, Repr

/-- The width of a host access (20_memory.md R54, R55). -/
inductive Width where
  | byte
  | half
  | word
  /-- Any other width. -/
  | other
deriving DecidableEq, Repr

/-- One host access to the host register space. An access narrower than 32 bits carries its data in the low bits. -/
inductive Access where
  | read (width : Width) (off : Offset)
  | write (width : Width) (off : Offset) (data : Word)
deriving DecidableEq, Repr

/-- What happens next at the block's interfaces: which agent moves, and how (00_scope.md R6). -/
inductive Event where
  /-- The host makes one access. -/
  | access (a : Access)
  /-- The host's WAIT pseudo-op: it reads STATUS until BUSY reads 0 (30_encoding.md R89). -/
  | waitIdle
  /-- The core goes on with a held command: it repeats its entropy request (60_exceptions.md R237). -/
  | coreTurn
  /-- The answer to the entropy request with this number arrives on the entropy interface (10_state.md R37). -/
  | entropyAnswer (request : Nat) (a : EntropyAnswer)
  /-- The platform applies reset (70_reset_and_hazards.md R250). -/
  | reset
deriving DecidableEq, Repr

/-- Why the machine stops with a fault. -/
inductive Fault where
  /-- Raised by a command or a host read whose window of `len` bytes at `addr` holds a byte that nothing has
  written since reset (70_reset_and_hazards.md R251). A real block goes on with whatever its memory holds. Safe. -/
  | unwrittenRead (addr len : Nat)
deriving DecidableEq, Repr

/-- Why a step is refused. -/
inductive Refusal where
  /-- Raised by an arm of `exec` whose instruction has no meaning yet. Safe. -/
  | notModelled (mnemonic : String)
  /-- Raised by a host access of an unsupported width or alignment, to which the block's response is unspecified
  (20_memory.md R55). Safe. -/
  | unsupportedAccess (a : Access)
  /-- Raised by a host access other than a read of STATUS or INFO while BUSY = 1 (70_reset_and_hazards.md R253). Safe. -/
  | busyHazard (a : Access)
deriving DecidableEq, Repr

/-- The state of the block, and the inputs its agents have still to make. -/
structure State where
  /-- The build parameters (00_scope.md R7); INFO reads them (10_state.md R32). DESIGN CHOICE, safe (log entry 4). -/
  cfg : Config
  /-- WM (10_state.md R30). -/
  wm : Memory
  /-- KEYV and RK (10_state.md R33). -/
  slots : KeySlots
  /-- STATUS.RESULT (10_state.md R27). -/
  result : Bool
  /-- STATUS.ERR (10_state.md R28). -/
  err : BitVec 4
  /-- The command latched from CMD that has not ended; STATUS.BUSY is 1 exactly while there is one
  (10_state.md R24, R26). -/
  latched : Option Instr
  /-- ENTROPY: the answers to the core's coming requests, in order (60_exceptions.md R236). With none listed the
  source has not answered yet. DESIGN CHOICE, safe (log entry 5). -/
  entropy : List EntropyAnswer
  /-- The number of the entropy request that a held MINT has outstanding, or that the next MINT will make. Each MINT
  makes one request, and a repeated one is the same (43_token_minter.md R183), so an answer can name the request it
  belongs to (70_reset_and_hazards.md R250). DESIGN CHOICE, safe (log entry 6). -/
  request : Nat
  /-- The moves still to be made at the interfaces, in their one total order (20_memory.md R63). DESIGN CHOICE, safe
  (log entry 7). -/
  events : List Event
  /-- The value the last host read returned; none before the first. DESIGN CHOICE, safe (log entry 8). -/
  readout : Option Word
deriving DecidableEq, Repr

/-- Work memory after power-on. Nothing precedes it, so `keep` has nothing to keep (70_reset_and_hazards.md R250).
DESIGN CHOICE, safe (log entry 3). -/
def Memory.powerOn : WmReset → Memory
  | .unwritten => .empty
  | .zero => ⟨(List.range 512).map fun a => (a, 0)⟩
  | .keep => .empty

/-- The machine right after reset, built with `cfg` (10_state.md R38). -/
def State.resetOf (cfg : Config) : State :=
  { cfg := cfg
    wm := .powerOn cfg.wmReset
    slots := .empty
    result := false
    err := 0
    latched := none
    entropy := []
    request := 0
    events := []
    readout := none }

/-- The machine right after reset with the default parameters. -/
def State.reset : State := State.resetOf Config.default

end Sys2Proof.Machine
end

