-- ==== Sys2Proof/Machine/Blocks.lean ====
section
/-! DEFINITION. Byte strings and blocks: the byte order of a block and exclusive or (00_scope.md R8, R9;
41_cipher.md R124). -/

namespace Sys2Proof.Machine

/-- The bytes of an ASCII text (00_scope.md R8, R13). DESIGN CHOICE, unsafe (log entry 20): a character outside ASCII,
for which the spec gives no byte, gives the low 8 bits of its code point. -/
def ascii (t : String) : List Byte := t.toList.map fun c => BitVec.ofNat 8 c.toNat

/-- `x[a..b)` of a byte string (00_scope.md R9); what lies past its end is left out (log entry 21). -/
def slice (x : List Byte) (a b : Nat) : List Byte := (x.drop a).take (b - a)

/-- The high nibble v[7:4] (00_scope.md R13). -/
def hiNibble (b : Byte) : BitVec 4 := b.extractLsb' 4 4

/-- The low nibble v[3:0] (00_scope.md R13). -/
def loNibble (b : Byte) : BitVec 4 := b.extractLsb' 0 4

def Column.toBytes (c : Column) : List Byte := [c.b0, c.b1, c.b2, c.b3]

def Column.ofBytes (x : List Byte) (i : Nat) : Column :=
  ⟨x.getD i 0, x.getD (i + 1) 0, x.getD (i + 2) 0, x.getD (i + 3) 0⟩

def Block.toBytes (s : Block) : List Byte :=
  s.c0.toBytes ++ s.c1.toBytes ++ s.c2.toBytes ++ s.c3.toBytes

/-- The block of a 16-byte string, byte i to row i mod 4 of column i div 4 (41_cipher.md R124). A shorter string, which
no command makes a block of, counts as padded with zeros (log entry 21). -/
def Block.ofBytes (x : List Byte) : Block :=
  ⟨.ofBytes x 0, .ofBytes x 4, .ofBytes x 8, .ofBytes x 12⟩

def Column.xor (a b : Column) : Column := ⟨a.b0 ^^^ b.b0, a.b1 ^^^ b.b1, a.b2 ^^^ b.b2, a.b3 ^^^ b.b3⟩

def Block.xor (a b : Block) : Block := ⟨a.c0.xor b.c0, a.c1.xor b.c1, a.c2.xor b.c2, a.c3.xor b.c3⟩

end Sys2Proof.Machine
end

