-- ==== Sys2Proof/Machine/Cipher.lean ====
section
/-! DEFINITION. The cipher unit: GF(2^8), the S-box, the round transformations and the AES-128 forward cipher
(41_cipher.md R121 to R129). There is no inverse of any of them (R131). -/

namespace Sys2Proof.Machine

/-! ## Arithmetic in GF(2^8) (41_cipher.md R121) -/

/-- Multiplication by x. -/
def xtime (a : Byte) : Byte := (a <<< 1) ^^^ (if a.getLsbD 7 then 0x1B else 0x00)

/-- xtime applied i times. -/
def xtimes : Nat → Byte → Byte
  | 0, a => a
  | i + 1, a => xtime (xtimes i a)

/-- One term of the product `a • b`: xtime^i(a) when bit i of b is set. -/
def gfTerm (a b : Byte) (i : Nat) : Byte := if b.getLsbD i then xtimes i a else 0

/-- The product `a • b`. -/
def gfMul (a b : Byte) : Byte :=
  gfTerm a b 0 ^^^ gfTerm a b 1 ^^^ gfTerm a b 2 ^^^ gfTerm a b 3 ^^^
    gfTerm a b 4 ^^^ gfTerm a b 5 ^^^ gfTerm a b 6 ^^^ gfTerm a b 7

/-! ## The S-box (41_cipher.md R122) -/

/-- The table's rows, high nibble 0 to F; within a row the byte for low nibble 0 is leftmost. -/
def sboxRows : List (BitVec 128) :=
  [ 0x637c777bf26b6fc53001672bfed7ab76#128,
    0xca82c97dfa5947f0add4a2af9ca472c0#128,
    0xb7fd9326363ff7cc34a5e5f171d83115#128,
    0x04c723c31896059a071280e2eb27b275#128,
    0x09832c1a1b6e5aa0523bd6b329e32f84#128,
    0x53d100ed20fcb15b6acbbe394a4c58cf#128,
    0xd0efaafb434d338545f9027f503c9fa8#128,
    0x51a3408f929d38f5bcb6da2110fff3d2#128,
    0xcd0c13ec5f974417c4a77e3d645d1973#128,
    0x60814fdc222a908846eeb814de5e0bdb#128,
    0xe0323a0a4906245cc2d3ac629195e479#128,
    0xe7c8376d8dd54ea96c56f4ea657aae08#128,
    0xba78252e1ca6b4c6e8dd741f4bbd8b8a#128,
    0x703eb5664803f60e613557b986c11d9e#128,
    0xe1f8981169d98e949b1e87e9ce5528df#128,
    0x8ca1890dbfe6426841992d0fb054bb16#128 ]

/-- The row is the high nibble of b and the column is the low nibble. -/
def sbox (b : Byte) : Byte :=
  (sboxRows.getD (hiNibble b).toNat 0).extractLsb' (8 * (15 - (loNibble b).toNat)) 8

/-! ## The round transformations -/

def Column.sub (c : Column) : Column := ⟨sbox c.b0, sbox c.b1, sbox c.b2, sbox c.b3⟩

/-- 41_cipher.md R125. -/
def addRoundKey (s k : Block) : Block := s.xor k

/-- 41_cipher.md R126. -/
def subBytes (s : Block) : Block := ⟨s.c0.sub, s.c1.sub, s.c2.sub, s.c3.sub⟩

/-- Row r rotates left by r columns (41_cipher.md R127). -/
def shiftRows (s : Block) : Block :=
  ⟨⟨s.c0.b0, s.c1.b1, s.c2.b2, s.c3.b3⟩, ⟨s.c1.b0, s.c2.b1, s.c3.b2, s.c0.b3⟩,
    ⟨s.c2.b0, s.c3.b1, s.c0.b2, s.c1.b3⟩, ⟨s.c3.b0, s.c0.b1, s.c1.b2, s.c2.b3⟩⟩

/-- `3 • a` (41_cipher.md R121). -/
def triple (a : Byte) : Byte := xtime a ^^^ a

/-- One column of MixColumns (41_cipher.md R128). -/
def Column.mix (a : Column) : Column :=
  ⟨xtime a.b0 ^^^ triple a.b1 ^^^ a.b2 ^^^ a.b3, a.b0 ^^^ xtime a.b1 ^^^ triple a.b2 ^^^ a.b3,
    a.b0 ^^^ a.b1 ^^^ xtime a.b2 ^^^ triple a.b3, triple a.b0 ^^^ a.b1 ^^^ a.b2 ^^^ xtime a.b3⟩

/-- 41_cipher.md R128. -/
def mixColumns (s : Block) : Block := ⟨s.c0.mix, s.c1.mix, s.c2.mix, s.c3.mix⟩

/-! ## The cipher (41_cipher.md R129) -/

/-- A full round. -/
def fullRound (s k : Block) : Block := addRoundKey (mixColumns (shiftRows (subBytes s))) k

/-- The final round, without the mix step. -/
def finalRound (s k : Block) : Block := addRoundKey (shiftRows (subBytes s)) k

/-- Cipher(RK, p): key whitening, nine full rounds, the final round. -/
def cipher (rk : RoundKeys) (p : Block) : Block :=
  let s := [rk[1], rk[2], rk[3], rk[4], rk[5], rk[6], rk[7], rk[8], rk[9]].foldl fullRound (addRoundKey p rk[0])
  finalRound s rk[10]

/-- Cipher on byte strings: a 16-byte block in, 16 bytes out. -/
def cipherBytes (rk : RoundKeys) (p : List Byte) : List Byte := (cipher rk (Block.ofBytes p)).toBytes

end Sys2Proof.Machine
end

