-- ==== Sys2Proof/Machine/Flags.lean ====
section
/-! DEFINITION. The flags: the error codes, the fields of STATUS, and the STATUS and INFO words
(10_state.md R25 to R29, R32; 60_exceptions.md R220). -/

namespace Sys2Proof.Machine

/-- The names of 60_exceptions.md R220. -/
inductive ErrCode where
  | ok
  | malformedIdentifier
  | insufficientRandomness
  | tagMismatch
  /-- Reserved, never written (60_exceptions.md R230). -/
  | hardwareUnsupported
  | keyNotValid
  | illegalCommand
  | rangeError
  | badSlot
deriving DecidableEq, Repr

/-- The values of 60_exceptions.md R220. -/
def ErrCode.code : ErrCode → BitVec 4
  | .ok => 0
  | .malformedIdentifier => 1
  | .insufficientRandomness => 2
  | .tagMismatch => 3
  | .hardwareUnsupported => 4
  | .keyNotValid => 5
  | .illegalCommand => 6
  | .rangeError => 7
  | .badSlot => 8

/-- STATUS.BUSY is 1 from the latching of a command word to the command's end (10_state.md R26). -/
def State.busy (s : State) : Bool := s.latched.isSome

/-- The slot with number `k`; a number the store has no slot for reads as an empty slot. -/
def State.slot (s : State) (k : Nat) : KeySlot := s.slots.toList.getD k .empty

/-- STATUS.KEYV[k]; it reads 0 for k ≥ NUM_SLOTS (10_state.md R29). -/
def State.keyv (s : State) (k : Nat) : Bool := decide (k < s.cfg.numSlots) && (s.slot k).valid

/-- STATUS.KEYV, bits 11:8 (10_state.md R25). -/
def State.keyvField (s : State) : BitVec 4 :=
  BitVec.ofBool (s.keyv 3) ++ BitVec.ofBool (s.keyv 2) ++ BitVec.ofBool (s.keyv 1) ++ BitVec.ofBool (s.keyv 0)

/-- STATUS, fields from bit 31 down: reserved, KEYV, ERR, reserved, RESULT, BUSY (10_state.md R25). -/
def State.statusWord (s : State) : Word :=
  0#20 ++ s.keyvField ++ s.err ++ 0#2 ++ BitVec.ofBool s.result ++ BitVec.ofBool s.busy

/-- INFO.B64STD (10_state.md R32). -/
def alphabetStdBit : B64Alphabet → Bool
  | .url => false
  | .std => true

/-- INFO, fields from bit 31 down: reserved, B64STD, COMP, reserved, SLOTS, VERSION (10_state.md R32). -/
def infoWord (c : Config) : Word :=
  0#18 ++ BitVec.ofBool (alphabetStdBit c.alphabet) ++ BitVec.ofBool c.componentCmds ++ 0#1 ++
    BitVec.ofNat 3 c.numSlots ++ 0x01#8

/-- A command ends: BUSY ← 0, RESULT and ERR as given (10_state.md R26 to R28). -/
def State.finish (s : State) (e : ErrCode) (result : Bool) : State :=
  { s with latched := none, result := result, err := e.code }

/-- A command is held: BUSY stays 1, RESULT was set to 0 when it was latched, ERR keeps the code of the command
before it (10_state.md R26 to R28). DEDUCED, unsafe (log entry 17). -/
def State.hold (s : State) (i : Instr) : State :=
  { s with latched := some i, result := false }

end Sys2Proof.Machine
end

