-- ==== Sys2Proof/Machine/Ops.lean ====
section
/-! DEFINITION. The named operations: work memory (00_scope.md R10), key slots (10_state.md R33), raising an
error (00_scope.md R12), the entropy request (60_exceptions.md R236 to R238), and the reset event
(70_reset_and_hazards.md R250). -/

namespace Sys2Proof.Machine

/-- What a command or an agent's move answers. -/
abbrev Result := Host.Outcome State Fault Refusal

/-! ## Work memory -/

/-- WM_BYTES (00_scope.md R7). -/
abbrev wmBytes : Nat := 512

def readCells (a : Nat) : List Host.Cell → Option Byte
  | [] => none
  | (b, v) :: rest => if b = a then some v else readCells a rest

def writeCells (a : Nat) (v : Byte) : List Host.Cell → List Host.Cell
  | [] => [(a, v)]
  | (b, w) :: rest =>
    if a < b then (a, v) :: (b, w) :: rest
    else if a = b then (a, v) :: rest
    else (b, w) :: writeCells a v rest

/-- WM[a]; none when nothing has written it since reset (70_reset_and_hazards.md R251). -/
def Memory.read (m : Memory) (a : Nat) : Option Byte := readCells a m.cells

/-- WM[a] ← v. -/
def Memory.write (m : Memory) (a : Nat) (v : Byte) : Memory := ⟨writeCells a v m.cells⟩

/-- MemRead(addr, n) of 00_scope.md R10; none when one of the n bytes is unwritten. -/
def Memory.readBytes (m : Memory) : Nat → Nat → Option (List Byte)
  | _, 0 => some []
  | a, n + 1 =>
    match m.read a, m.readBytes (a + 1) n with
    | some v, some vs => some (v :: vs)
    | _, _ => none

/-- MemWrite(addr, n, v) of 00_scope.md R10, with n the length of v. -/
def Memory.writeBytes (m : Memory) : Nat → List Byte → Memory
  | _, [] => m
  | a, v :: vs => (m.write a v).writeBytes (a + 1) vs

/-- Every listed address is at least `lo`, inside WM, and below the next one. -/
def cellsWf (lo : Nat) : List Host.Cell → Bool
  | [] => true
  | (a, _) :: rest => decide (lo ≤ a) && decide (a < wmBytes) && cellsWf (a + 1) rest

/-- The canonical form: addresses strictly rising and inside WM. An unlisted address reads as no value, so no
entry can equal it. -/
def Memory.wf (m : Memory) : Bool := cellsWf 0 m.cells

def State.writeWm (s : State) (a : Nat) (vs : List Byte) : State :=
  { s with wm := s.wm.writeBytes a vs }

/-- Go on with the n bytes at WM[a..a+n); a window with an unwritten byte faults (70_reset_and_hazards.md R251). -/
def State.withBytes (s : State) (a n : Nat) (go : List Byte → Result) : Result :=
  match s.wm.readBytes a n with
  | some vs => go vs
  | none => .fault (.unwrittenRead a n)

/-! ## Key slots -/

/-- Write slot k; no other slot changes (40_key_schedule.md R107). -/
def State.setSlot (s : State) (k : Nat) (slot : KeySlot) : State :=
  { s with slots := s.slots.setIfInBounds k slot }

/-! ## Errors -/

/-- `raise E`: no byte of WM and no key slot changes; ERR ← code(E), RESULT ← 0, BUSY ← 0
(00_scope.md R12, 60_exceptions.md R223). There is no handler and nothing to return from (60_exceptions.md R225). -/
def State.raise (s : State) (e : ErrCode) : Result := .next (s.finish e false)

/-! ## The entropy interface -/

def Nonce.toBytes (n : Nonce) : List Byte := [n.n0, n.n1, n.n2, n.n3, n.n4, n.n5, n.n6]

/-- The outstanding request has had its answer, and `rest` is left of the list: the next MINT makes a new request
(43_token_minter.md R183). -/
def State.requestAnswered (s : State) (rest : List EntropyAnswer) : State :=
  { s with entropy := rest, request := s.request + 1 }

/-- EntropyRequest(7) by the command `i`: Bytes goes on with the nonce, Wait holds the command, Fail raises
InsufficientRandomness (60_exceptions.md R236 to R238). With no answer listed the request is outstanding and the
command is held. -/
def State.requestEntropy (s : State) (i : Instr) (go : State → List Byte → Result) : Result :=
  match s.entropy with
  | [] => .next (s.hold i)
  | .wait :: rest => .next (State.hold { s with entropy := rest } i)
  | .fail :: rest => State.raise (s.requestAnswered rest) .insufficientRandomness
  | .bytes nonce :: rest => go (s.requestAnswered rest) nonce.toBytes

/-! ## Reset -/

/-- Work memory after the reset event (70_reset_and_hazards.md R250). -/
def Memory.afterReset (m : Memory) : WmReset → Memory
  | .unwritten => .empty
  | .zero => .powerOn .zero
  | .keep => m

/-- The reset event: a command in progress is abandoned, its entropy request is withdrawn, so that no answer to it is
taken later, and the state takes its reset values (70_reset_and_hazards.md R250). The requests are numbered by the
model (log entry 6). What the host and the entropy source have still to do is theirs and stays: DESIGN CHOICE, safe
(log entry 9). -/
def State.applyReset (s : State) : State :=
  { s with
    wm := s.wm.afterReset s.cfg.wmReset
    slots := .empty
    result := false
    err := 0
    latched := none
    request := s.request + 1 }

end Sys2Proof.Machine
end

