-- ==== Sys2Proof/Machine/Operands.lean ====
section
/-! DEFINITION. The operand forms of the commands and their checks, which a command makes in the order of
60_exceptions.md R222: component command, slot, windows, key. -/

namespace Sys2Proof.Machine

/-! ## The fixed regions of work memory (10_state.md R31) -/

abbrev keyAddr : Nat := 0x000
abbrev capAddr : Nat := 0x030
abbrev idAddr : Nat := 0x040
abbrev tokAddr : Nat := 0x100

abbrev keyLen : Nat := 16
abbrev idLen : Nat := 36
/-- TOKEN_LEN (00_scope.md R7). -/
abbrev tokLen : Nat := 179

/-! ## Checks -/

/-- A component command exists only when COMPONENT_CMDS_ENABLED = 1 (30_encoding.md R85). The decoder says so for
a command word; this says it for the command itself (DESIGN CHOICE, safe, log entry 13). -/
def State.requireComponent (s : State) (go : Result) : Result :=
  if s.cfg.componentCmds then go else s.raise .illegalCommand

/-- BadSlot unless SLOT < NUM_SLOTS (60_exceptions.md R222). -/
def State.requireSlot (s : State) (k : Nat) (go : Result) : Result :=
  if k < s.cfg.numSlots then go else s.raise .badSlot

/-- RangeError unless both windows fit in WM; the sums are exact (20_memory.md R66). -/
def State.requireWindows (s : State) (src inLen dst outLen : Nat) (go : Result) : Result :=
  if src + inLen > wmBytes ∨ dst + outLen > wmBytes then s.raise .rangeError else go

/-- KeyNotValid unless KEYV[k] = 1; goes on with RK[k] (60_exceptions.md R222). -/
def State.requireKey (s : State) (k : Nat) (go : RoundKeys → Result) : Result :=
  if (s.slot k).valid then go (s.slot k).rk else s.raise .keyNotValid

/-! ## The codec operand form -/

/-- Read `inLen` bytes at `src`, convert them, write the outcome at `dst`; every read precedes the write
(20_memory.md R61). A conversion without an outcome raises MalformedIdentifier and writes nothing
(42_codec.md R151). -/
def State.transform (s : State) (src inLen dst outLen : Nat) (f : List Byte → Option (List Byte)) : Result :=
  s.requireWindows src inLen dst outLen <|
    s.withBytes src inLen fun xs =>
      match f xs with
      | some ys => .next ((s.writeWm dst ys).finish .ok false)
      | none => s.raise .malformedIdentifier

end Sys2Proof.Machine
end

