-- ==== Sys2Proof/Machine/CipherUnit.lean ====
section
/-! DEFINITION. The command ENCRYPT of the cipher unit (41_cipher.md R130). -/

namespace Sys2Proof.Machine

/-- BLOCK_BYTES (00_scope.md R7). -/
abbrev blockBytes : Nat := 16

/-- ENCRYPT: one forward block encryption with the schedule of a slot (41_cipher.md R130). -/
def execEncrypt (slot src dst : Nat) (s : State) : Result :=
  s.requireComponent <| s.requireSlot slot <| s.requireWindows src blockBytes dst blockBytes <|
    s.requireKey slot fun rk =>
      s.withBytes src blockBytes fun p =>
        .next ((s.writeWm dst (cipherBytes rk p)).finish .ok false)

end Sys2Proof.Machine
end

