-- ==== Sys2Proof/Machine/KeySchedule.lean ====
section
/-! DEFINITION. The key schedule unit: KeyExpansion (40_key_schedule.md R101 to R104) and the commands EXPAND and
CLEAR (R105, R106). -/

namespace Sys2Proof.Machine

/-- Rcon[j], j = 1 to 10: the powers x^(j-1) (40_key_schedule.md R102). -/
def rcon (j : Nat) : Byte := xtimes (j - 1) 0x01

/-- A cyclic left rotation by one byte (40_key_schedule.md R103). -/
def rotWord (w : Column) : Column := ⟨w.b1, w.b2, w.b3, w.b0⟩

/-- 40_key_schedule.md R103. -/
def subWord (w : Column) : Column := w.sub

/-- The words w[4r..4r+3] from w[4r-4..4r-1]: four turns of R101's loop, the first with Rcon[r]. -/
def nextRoundKey (k : Block) (r : Nat) : Block :=
  let w0 := k.c0.xor ((subWord (rotWord k.c3)).xor ⟨rcon r, 0, 0, 0⟩)
  let w1 := k.c1.xor w0
  let w2 := k.c2.xor w1
  let w3 := k.c3.xor w2
  ⟨w0, w1, w2, w3⟩

/-- RK[r] of the key k; RK[0] is k (40_key_schedule.md R101). -/
def roundKey (k : Block) : Nat → Block
  | 0 => k
  | r + 1 => nextRoundKey (roundKey k r) (r + 1)

/-- KeyExpansion(k): the round keys RK[0..10] (40_key_schedule.md R101). -/
def keyExpansion (k : Block) : RoundKeys :=
  #v[roundKey k 0, roundKey k 1, roundKey k 2, roundKey k 3, roundKey k 4, roundKey k 5,
    roundKey k 6, roundKey k 7, roundKey k 8, roundKey k 9, roundKey k 10]

/-- The slot that holds the schedule of k. -/
def expandedSlot (k : Block) : KeySlot := ⟨true, keyExpansion k⟩

/-- EXPAND: build the schedule of a slot from KEY, then zero KEY (40_key_schedule.md R105). -/
def execExpand (slot : Nat) (s : State) : Result :=
  s.requireSlot slot <|
    s.withBytes keyAddr keyLen fun k =>
      .next (((s.setSlot slot (expandedSlot (Block.ofBytes k))).writeWm keyAddr (List.replicate keyLen 0)).finish
        .ok false)

/-- CLEAR: destroy the schedule of a slot (40_key_schedule.md R106). -/
def execClear (slot : Nat) (s : State) : Result :=
  s.requireSlot slot <| .next ((s.setSlot slot .empty).finish .ok false)

end Sys2Proof.Machine
end

