-- ==== Sys2Proof/Machine/Codec.lean ====
section
/-! DEFINITION. The codec unit: base64 (42_codec.md R141 to R144), hex (R145 to R147), and the commands B64ENC,
B64DEC, HEXENC and HEXDEC (R148 to R151). -/

namespace Sys2Proof.Machine

/-! ## Base64 -/

/-- ALPHA[62] (42_codec.md R141). -/
def alpha62 : B64Alphabet → Byte
  | .url => 0x2D
  | .std => 0x2B

/-- ALPHA[63] (42_codec.md R141). -/
def alpha63 : B64Alphabet → Byte
  | .url => 0x5F
  | .std => 0x2F

/-- ALPHA[i] by the ranges of 42_codec.md R141. -/
def alphaChar (al : B64Alphabet) (i : BitVec 6) : Byte :=
  let v : Byte := i.setWidth 8
  if v < 26 then 0x41 + v
  else if v < 52 then 0x61 + (v - 26)
  else if v < 62 then 0x30 + (v - 52)
  else if v = 62 then alpha62 al
  else alpha63 al

/-- The decode map: the index of c in ALPHA, and 0 for a byte outside it (42_codec.md R143). -/
def sextet (al : B64Alphabet) (c : Byte) : BitVec 6 :=
  if 0x41 ≤ c ∧ c ≤ 0x5A then (c - 0x41).setWidth 6
  else if 0x61 ≤ c ∧ c ≤ 0x7A then (c - 0x61 + 26).setWidth 6
  else if 0x30 ≤ c ∧ c ≤ 0x39 then (c - 0x30 + 52).setWidth 6
  else if c = alpha62 al then 62
  else if c = alpha63 al then 63
  else 0

/-- The four characters of a 24-bit group, most significant sextet first (42_codec.md R142). -/
def groupChars (al : B64Alphabet) (v : BitVec 24) : List Byte :=
  [alphaChar al (v.extractLsb' 18 6), alphaChar al (v.extractLsb' 12 6),
    alphaChar al (v.extractLsb' 6 6), alphaChar al (v.extractLsb' 0 6)]

/-- The three bytes of a 24-bit group, most significant first (42_codec.md R144). -/
def groupBytes (v : BitVec 24) : List Byte :=
  [v.extractLsb' 16 8, v.extractLsb' 8 8, v.extractLsb' 0 8]

/-- B64Enc: whole groups of 3 bytes to 4 characters (42_codec.md R140, R142); a part of a group, which no command
gives it, is left out (log entry 21). -/
def b64Enc (al : B64Alphabet) : List Byte → List Byte
  | x0 :: x1 :: x2 :: rest => groupChars al (x0 ++ x1 ++ x2) ++ b64Enc al rest
  | _ => []

/-- B64Dec: whole groups of 4 characters to 3 bytes (42_codec.md R140, R144); a part of a group is left out
(log entry 21). -/
def b64Dec (al : B64Alphabet) : List Byte → List Byte
  | c0 :: c1 :: c2 :: c3 :: rest =>
    groupBytes (sextet al c0 ++ sextet al c1 ++ sextet al c2 ++ sextet al c3) ++ b64Dec al rest
  | _ => []

/-! ## Hex -/

/-- HEXD[v] (42_codec.md R145). -/
def hexDigit (v : BitVec 4) : Byte :=
  let b : Byte := v.setWidth 8
  if b < 10 then 0x30 + b else 0x61 + (b - 10)

/-- Membership in `[0-9a-f]` (42_codec.md R147). -/
def isHexDigit (c : Byte) : Bool :=
  decide (0x30 ≤ c ∧ c ≤ 0x39) || decide (0x61 ≤ c ∧ c ≤ 0x66)

/-- nib(c): a byte outside `[0-9a-f]` gives 0 (42_codec.md R146). -/
def nib (c : Byte) : BitVec 4 :=
  if 0x30 ≤ c ∧ c ≤ 0x39 then (c - 0x30).setWidth 4
  else if 0x61 ≤ c ∧ c ≤ 0x66 then (c - 0x61 + 10).setWidth 4
  else 0

/-- HexEnc, high nibble first (42_codec.md R145). -/
def hexEnc : List Byte → List Byte
  | [] => []
  | x :: rest => hexDigit (hiNibble x) :: hexDigit (loNibble x) :: hexEnc rest

/-- HexDecT, tolerant (42_codec.md R146); an odd last character is left out (log entry 21). -/
def hexDecT : List Byte → List Byte
  | c0 :: c1 :: rest => (nib c0 ++ nib c1) :: hexDecT rest
  | _ => []

/-- HexDecS, strict; none is the failure value (42_codec.md R147). -/
def hexDecS (c : List Byte) : Option (List Byte) :=
  if c.all isHexDigit then some (hexDecT c) else none

/-! ## Commands -/

/-- B64ENC: N groups, 3·N bytes in and 4·N characters out (42_codec.md R148). -/
def execB64enc (src dst n : Nat) (s : State) : Result :=
  s.requireComponent <| s.transform src (3 * n) dst (4 * n) fun x => some (b64Enc s.cfg.alphabet x)

/-- B64DEC: N groups, 4·N characters in and 3·N bytes out; it never fails on data (42_codec.md R149). -/
def execB64dec (src dst n : Nat) (s : State) : Result :=
  s.requireComponent <| s.transform src (4 * n) dst (3 * n) fun c => some (b64Dec s.cfg.alphabet c)

/-- HEXENC: N bytes in and 2·N characters out (42_codec.md R150). -/
def execHexenc (src dst n : Nat) (s : State) : Result :=
  s.requireComponent <| s.transform src n dst (2 * n) fun x => some (hexEnc x)

/-- HEXDEC: 2·N characters in and N bytes out, strict when S = 1 (42_codec.md R151). -/
def execHexdec (strict : Bool) (src dst n : Nat) (s : State) : Result :=
  s.requireComponent <| s.transform src (2 * n) dst n fun c =>
    if strict then hexDecS c else some (hexDecT c)

end Sys2Proof.Machine
end

