-- ==== Sys2Proof/Machine/Token.lean ====
section
/-! DEFINITION. The token: its offsets, template, field encoders and decoders, the identifier extraction and the
tag comparison (43_token_minter.md R170 to R181, 44_token_validator.md R201, R202). -/

namespace Sys2Proof.Machine

/-! ## Layout (43_token_minter.md R171) -/

abbrev subStart : Nat := 57
abbrev jtiStart : Nat := 93
abbrev tagStart : Nat := 134

/-- The characters of the SUB field and of the JTI field. -/
abbrev fieldLen : Nat := 24
/-- The characters of the TAG field. -/
abbrev tagFieldLen : Nat := 44

/-- The folded quote byte. -/
def quote : Byte := 0x22

def dot : Byte := 0x2E

/-- TEMPLATE: 178 characters and the terminating NUL (43_token_minter.md R172). -/
def template : List Byte :=
  ascii "eyAiYWxnIjogIkFFUzEyOCIsICJ0eXAiOiAiSldUIiB9" ++ ascii "." ++
    ascii "eyAic3ViIjogIjAwMDAwMDAwMDAwMDAwMDAiLCAianRpIjogIjAwMDAwMDAwMDAwMDAwMDAiLCAidmVyIjogMSB9" ++ ascii "." ++
    ascii "IjAwMDAwMDAwMDAwMDAwMDAwMDAwMDAwMDAwMDAwMDAw" ++ [0x00]

/-- HDR, the decoded header; 0x7B and 0x7D are its braces (43_token_minter.md R173). -/
def header : List Byte :=
  [0x7B] ++ ascii " \"alg\": \"AES128\", \"typ\": \"JWT\" " ++ [0x7D]

/-- PAYLOAD(a, b), the decoded payload of two 16-character hex strings (43_token_minter.md R174). -/
def payload (a b : List Byte) : List Byte :=
  [0x7B] ++ ascii " \"sub\": " ++ [quote] ++ a ++ [quote] ++ ascii ", \"jti\": " ++ [quote] ++ b ++ [quote] ++
    ascii ", \"ver\": 1 " ++ [0x7D]

/-! ## Field encoders and the token image -/

/-- EncF: 8 bytes to a 24-character field (43_token_minter.md R176). -/
def encF (al : B64Alphabet) (x : List Byte) : List Byte := b64Enc al ([quote] ++ hexEnc x ++ [quote])

/-- EncT: a 16-byte tag to the 44-character TAG field (43_token_minter.md R176). -/
def encT (al : B64Alphabet) (t : List Byte) : List Byte := b64Enc al ([quote] ++ hexEnc t)

/-- `t[start..)` overwritten by a field, the rest of t unchanged. -/
def overwrite (t : List Byte) (start : Nat) (field : List Byte) : List Byte :=
  t.take start ++ field ++ t.drop (start + field.length)

/-- TokenImage(ID8, CN8, TAG) (43_token_minter.md R177). -/
def tokenImage (al : B64Alphabet) (id8 cn8 tag : List Byte) : List Byte :=
  overwrite (overwrite (overwrite template subStart (encF al id8)) jtiStart (encF al cn8)) tagStart (encT al tag)

/-- IdExtract: characters 19 to 22 and 24 to 35, strictly hex (43_token_minter.md R180). -/
def idExtract (ident : List Byte) : Option (List Byte) := hexDecS (slice ident 19 23 ++ slice ident 24 36)

/-! ## Field decoders and the tag comparison -/

/-- DecF: the 8 bytes of a 24-character field; its quote bytes are not examined (44_token_validator.md R201). -/
def decF (al : B64Alphabet) (f : List Byte) : List Byte := hexDecT (slice (b64Dec al f) 1 17)

/-- DecT: the 16 bytes of the TAG field (44_token_validator.md R201). -/
def decT (al : B64Alphabet) (f : List Byte) : List Byte := hexDecT (slice (b64Dec al f) 1 33)

/-- TagEq: true exactly when every byte is equal, every pair examined (44_token_validator.md R202); strings of two
lengths, which VALIDATE never compares, are not equal (log entry 21). -/
def tagEq (a b : List Byte) : Bool :=
  decide (a.length = b.length) && (List.zipWith (fun x y => x ^^^ y) a b).foldl (fun acc d => acc ||| d) 0 == 0

end Sys2Proof.Machine
end

