-- ==== Sys2Proof/Machine/TokenUnits.lean ====
section
/-! DEFINITION. The commands of the minter and the validator: MINT (43_token_minter.md R182) and VALIDATE
(44_token_validator.md R200). -/

namespace Sys2Proof.Machine

/-- The end of a MINT once the nonce is there: the token over P = id8 ‖ cap ‖ nonce is written to TOKBUF
(43_token_minter.md R181, R182). -/
def mintToken (rk : RoundKeys) (id8 cap : List Byte) (s : State) (nonce : List Byte) : State :=
  (s.writeWm tokAddr
    (tokenImage s.cfg.alphabet id8 (cap ++ nonce) (cipherBytes rk (id8 ++ cap ++ nonce)))).finish .ok false

/-- MINT: mint a token for IDBUF and CAP under the schedule of a slot (43_token_minter.md R182). The order of
its reads is DEDUCED, unsafe (log entry 11). -/
def execMint (slot : Nat) (s : State) : Result :=
  s.requireSlot slot <| s.requireKey slot fun rk =>
    s.withBytes idAddr idLen fun ident =>
      match idExtract ident with
      | none => s.raise .malformedIdentifier
      | some id8 =>
        s.withBytes capAddr 1 fun cap =>
          s.requestEntropy (.mint slot) fun s' nonce => .next (mintToken rk id8 cap s' nonce)

/-- Whether the three decoded fields of a token are authentic under a schedule (44_token_validator.md R200, R206). -/
def authentic (al : B64Alphabet) (rk : RoundKeys) (sub jti tag : List Byte) : Bool :=
  tagEq (cipherBytes rk (decF al sub ++ decF al jti)) (decT al tag)

/-- The end of a VALIDATE: authentic, or the ordinary outcome TagMismatch (44_token_validator.md R200). -/
def State.verdict (s : State) (ok : Bool) : State :=
  if ok then s.finish .ok true else s.finish .tagMismatch false

/-- VALIDATE: decide whether the token in TOKBUF is authentic under the schedule of a slot; it reads the three
field windows and nothing else (44_token_validator.md R200, R203). -/
def execValidate (slot : Nat) (s : State) : Result :=
  s.requireSlot slot <| s.requireKey slot fun rk =>
    s.withBytes (tokAddr + subStart) fieldLen fun sub =>
      s.withBytes (tokAddr + jtiStart) fieldLen fun jti =>
        s.withBytes (tokAddr + tagStart) tagFieldLen fun tag =>
          .next (s.verdict (authentic s.cfg.alphabet rk sub jti tag))

end Sys2Proof.Machine
end

