-- ==== Sys2Proof/Machine/Dispatch.lean ====
section
/-! DEFINITION. Dispatch: one arm per command of the opcode table (30_encoding.md R82). -/

namespace Sys2Proof.Machine

def exec (i : Instr) (s : State) : Host.Outcome State Fault Refusal :=
  match i with
  | .expand slot => Sys2Proof.Machine.execExpand slot s
  | .clear slot => Sys2Proof.Machine.execClear slot s
  | .encrypt slot src dst => Sys2Proof.Machine.execEncrypt slot src dst s
  | .b64enc src dst n => Sys2Proof.Machine.execB64enc src dst n s
  | .b64dec src dst n => Sys2Proof.Machine.execB64dec src dst n s
  | .hexenc src dst n => Sys2Proof.Machine.execHexenc src dst n s
  | .hexdec strict src dst n => Sys2Proof.Machine.execHexdec strict src dst n s
  | .mint slot => Sys2Proof.Machine.execMint slot s
  | .validate slot => Sys2Proof.Machine.execValidate slot s

end Sys2Proof.Machine
end

