-- ==== Sys2Proof/Machine/Bus.lean ====
section
/-! DEFINITION. The moves of the agents: the host's accesses to the host register space (10_state.md R22 to R32,
20_memory.md R51 to R57), the core's turn at a held command, an entropy answer, and the platform's reset. -/

namespace Sys2Proof.Machine

/-! ## The register map (10_state.md R22) -/

def cmdOffset : Offset := 0x200
def statusOffset : Offset := 0x204
def infoOffset : Offset := 0x208
/-- The first reserved offset (10_state.md R23). -/
def reservedOffset : Offset := 0x20C

/-- Offsets 0x000 to 0x1FF are the window on WM (10_state.md R30). -/
def inWm (off : Offset) : Bool := decide (off.toNat < wmBytes)

/-- Bytes an access of this width moves. -/
def Width.bytes : Width → Nat
  | .byte => 1
  | .half => 2
  | .word => 4
  | .other => 0

/-- 8-bit accesses to WM and reserved offsets, aligned 32-bit accesses anywhere, and nothing else
(20_memory.md R54, R55). -/
def widthSupported (w : Width) (off : Offset) : Bool :=
  match w with
  | .byte => inWm off || decide (reservedOffset ≤ off)
  | .half => false
  | .word => off.toNat % 4 == 0
  | .other => false

def Access.supported : Access → Bool
  | .read w off => widthSupported w off
  | .write w off _ => widthSupported w off

/-- While BUSY = 1 the host may read STATUS and INFO, and nothing else (70_reset_and_hazards.md R253). DEDUCED, safe
(log entry 12). -/
def Access.allowedWhileBusy : Access → Bool
  | .read _ off => off == statusOffset || off == infoOffset
  | .write _ _ _ => false

/-! ## Byte order (20_memory.md R51, R52) -/

/-- The low `n` bytes of a word, little-endian. -/
def leBytes : Nat → Word → List Byte
  | 0, _ => []
  | n + 1, v => v.setWidth 8 :: leBytes n (v >>> 8)

/-- The word a little-endian byte string stands for, zero-extended. -/
def ofLeBytes : List Byte → Word
  | [] => 0
  | b :: rest => b.setWidth 32 ||| (ofLeBytes rest <<< 8)

/-! ## The host -/

/-- A host read returns `v`. -/
def State.deliver (s : State) (v : Word) : State := { s with readout := some v }

/-- What a read outside the WM window returns: CMD and the reserved offsets read as 0 (10_state.md R22 to R24). -/
def State.registerValue (s : State) (off : Offset) : Word :=
  if off = statusOffset then s.statusWord
  else if off = infoOffset then infoWord s.cfg
  else 0

/-- A supported host read; it has no side effect on the block (20_memory.md R57). -/
def State.hostRead (s : State) (w : Width) (off : Offset) : Result :=
  if inWm off then s.withBytes off.toNat w.bytes fun vs => .next (s.deliver (ofLeBytes vs))
  else .next (s.deliver (s.registerValue off))

/-- A command word written to CMD: it is decoded and executed, or it is illegal (30_encoding.md R84, R87). -/
def State.runCommand (s : State) (w : Word) : Result :=
  match decode s.cfg w with
  | .instr i => exec i s
  | .illegal _ => s.raise .illegalCommand

/-- A supported host write: to WM it changes the addressed bytes, to CMD it runs a command, elsewhere it has no
effect (20_memory.md R57). -/
def State.hostWrite (s : State) (w : Width) (off : Offset) (v : Word) : Result :=
  if inWm off then .next (s.writeWm off.toNat (leBytes w.bytes v))
  else if off = cmdOffset then s.runCommand v
  else .next s

/-- One host access (20_memory.md R55, 70_reset_and_hazards.md R253). -/
def State.hostAccess (s : State) (a : Access) : Result :=
  if !a.supported then .refused (.unsupportedAccess a)
  else if s.busy && !a.allowedWhileBusy then .refused (.busyHazard a)
  else match a with
    | .read w off => s.hostRead w off
    | .write w off v => s.hostWrite w off v

/-- WAIT: read STATUS; while BUSY reads 1, let the core have its turn and read again (30_encoding.md R89).
DESIGN CHOICE, unsafe (log entry 10): no other move comes between two reads of one WAIT; a reset or an entropy answer
listed behind it is reached when BUSY reads 0. -/
def State.hostWait (s : State) : Result :=
  if s.busy then .next { s.deliver s.statusWord with events := .coreTurn :: .waitIdle :: s.events }
  else .next (s.deliver s.statusWord)

/-! ## The core, the entropy source and the platform -/

/-- The core's turn: a held command repeats its request, an idle core does nothing (60_exceptions.md R237, R242). -/
def State.coreTurn (s : State) : Result :=
  match s.latched with
  | some i => exec i s
  | none => .next s

/-- The answer to request `n` arrives: the held MINT takes it if that is its request. Any other answer is ignored: one
that comes late for a MINT that reset abandoned, whether or not a new MINT is held (70_reset_and_hazards.md R250), and
one to a request that is over or was never made (DESIGN CHOICE, safe, log entry 6). -/
def State.answerArrives (s : State) (n : Nat) (a : EntropyAnswer) : Result :=
  match s.latched with
  | some i => if n = s.request then exec i { s with entropy := a :: s.entropy } else .next s
  | none => .next s

/-- One move of one agent (00_scope.md R6). -/
def State.move (s : State) : Event → Result
  | .access a => s.hostAccess a
  | .waitIdle => s.hostWait
  | .coreTurn => s.coreTurn
  | .entropyAnswer n a => s.answerArrives n a
  | .reset => .next s.applyReset

/-! ## Host programs (30_encoding.md R89) -/

def wr8 (off : Offset) (v : Byte) : Event := .access (.write .byte off (v.setWidth 32))
def wr32 (off : Offset) (v : Word) : Event := .access (.write .word off v)
def rd8 (off : Offset) : Event := .access (.read .byte off)
def rd32 (off : Offset) : Event := .access (.read .word off)

/-- WRHEX: the bytes of a string, written one by one in order. DESIGN CHOICE, unsafe (log entry 18): a string that
runs past offset 0x3FF, to which the spec gives no meaning, goes on at 0x000. -/
def wrHex (off : Offset) : List Byte → List Event
  | [] => []
  | v :: rest => wr8 off v :: wrHex (off + 1) rest

/-- WRSTR: the characters of a text, written one by one in order; past offset 0x3FF as WRHEX (log entry 18),
and characters outside ASCII as `ascii` has them (log entry 20). -/
def wrStr (off : Offset) (t : String) : List Event := wrHex off (ascii t)

/-- A command mnemonic: its word written to CMD, then WAIT. DESIGN CHOICE, unsafe (log entry 19): an operand that an
assembler refuses is cut to its field here; `assemble` says which those are. -/
def command (i : Instr) : List Event := [wr32 cmdOffset (encode i), .waitIdle]

/-- Where step takes its next command from: a host write of the word to CMD, the core idle. -/
def State.withCommand (s : State) (w : Word) : State :=
  { s with latched := none, events := wr32 cmdOffset w :: s.events }

end Sys2Proof.Machine
end

