-- ==== Sys2Proof/Machine/Step.lean ====
section
/-! DEFINITION. One step: the next move at the block's interfaces, in the one total order of 20_memory.md R63. -/

namespace Sys2Proof.Machine

/-- The next listed move. With none listed, the core goes on with a held command or stays idle
(60_exceptions.md R237, R242). DESIGN CHOICE, unsafe (log entry 10). -/
def step (s : State) : Host.Outcome State Fault Refusal :=
  match s.events with
  | [] => s.coreTurn
  | e :: rest => State.move { s with events := rest } e

/-- The block fetches nothing (10_state.md R21): the next command is the word the host writes to CMD next.
DEDUCED, safe (log entry 1). -/
def State.withFetchWord (s : State) (nbits w : Nat) : State := s.withCommand (tableWord nbits w)

end Sys2Proof.Machine
end

