-- ==== Sys2Proof/Safety.lean ====
section
/-! DEFINITION. What a run of the block may rely on: the invariant of its state, the codes a command may end with,
and the words in which the statements about commands are written. -/

namespace Sys2Proof.Machine

/-- The codes that some command writes to STATUS.ERR; code 4 and codes 9 to 15 are never written
(60_exceptions.md R220, R230). -/
def writtenCodes : List (BitVec 4) := [0, 1, 2, 3, 5, 6, 7, 8]

/-- The codes that may end a command (60_exceptions.md R221); IllegalCommand stands for the component commands of a
build without them (30_encoding.md R85), every other illegal word being no instruction. -/
def possibleCodes : Instr → List ErrCode
  | .expand _ => [.ok, .badSlot]
  | .clear _ => [.ok, .badSlot]
  | .encrypt _ _ _ => [.ok, .keyNotValid, .illegalCommand, .rangeError, .badSlot]
  | .b64enc _ _ _ => [.ok, .illegalCommand, .rangeError]
  | .b64dec _ _ _ => [.ok, .illegalCommand, .rangeError]
  | .hexenc _ _ _ => [.ok, .illegalCommand, .rangeError]
  | .hexdec strict _ _ _ =>
    if strict then [.ok, .malformedIdentifier, .illegalCommand, .rangeError] else [.ok, .illegalCommand, .rangeError]
  | .mint _ => [.ok, .malformedIdentifier, .insufficientRandomness, .keyNotValid, .badSlot]
  | .validate _ => [.ok, .tagMismatch, .keyNotValid, .badSlot]

/-- The bytes `vs` stand at `a` in `t`, and every other byte of WM is as in `s`. -/
def Stored (s t : State) (a : Nat) (vs : List Byte) : Prop :=
  t.wm.readBytes a vs.length = some vs ∧ ∀ b, (b < a ∨ a + vs.length ≤ b) → t.wm.read b = s.wm.read b

/-- Every check MINT makes before its entropy request passes: the slot, the key, the identifier, and every byte it
reads has been written (43_token_minter.md R182). -/
def MintReady (s : State) (slot : Nat) (ident id8 cap : List Byte) : Prop :=
  slot < s.cfg.numSlots ∧ (s.slot slot).valid = true ∧ s.wm.readBytes idAddr idLen = some ident ∧
    idExtract ident = some id8 ∧ s.wm.readBytes capAddr 1 = some cap

/-- The meaning of a codec command that reads `inLen` bytes at `src` and stores `f` of them at `dst`
(20_memory.md R59, R61, R66): it is illegal in a build without component commands, raises RangeError when a window
does not fit, faults on an unwritten source, and else stores. -/
def CodecMeaning (i : Instr) (s : State) (src inLen dst outLen : Nat) (f : List Byte → List Byte) : Prop :=
  (s.cfg.componentCmds = false →
    exec i s = .next { s with latched := none, result := false, err := 6 }) ∧
  (s.cfg.componentCmds = true → (512 < src + inLen ∨ 512 < dst + outLen) →
    exec i s = .next { s with latched := none, result := false, err := 7 }) ∧
  (s.cfg.componentCmds = true → src + inLen ≤ 512 → dst + outLen ≤ 512 → s.wm.readBytes src inLen = none →
    exec i s = .fault (.unwrittenRead src inLen)) ∧
  (∀ x, s.cfg.componentCmds = true → src + inLen ≤ 512 → dst + outLen ≤ 512 → s.wm.readBytes src inLen = some x →
    ∃ t, exec i s = .next t ∧ t = { s with wm := t.wm, latched := none, result := false, err := 0 } ∧
      (f x).length = outLen ∧ Stored s t dst (f x))

/-- The words of one instruction: its fields are exactly these, its reserved bit is 0, and a component command exists
in this build (30_encoding.md R82 to R85). -/
def EncodedBy (cfg : Config) (i : Instr) (op slot strict src dst n : Nat) : Prop :=
  ∀ w, decode cfg w = .instr i ↔
    (i.isComponent = true → cfg.componentCmds = true) ∧ fieldOp w = op ∧ fieldSlot w = slot ∧ fieldS w = strict ∧
      fieldRsv w = 0 ∧ fieldSrc w = src ∧ fieldDst w = dst ∧ fieldN w = n

/-- The word w[i] of a key schedule, i = 0 to 43 (40_key_schedule.md R101). -/
def scheduleWord (rk : RoundKeys) (i : Nat) : Column :=
  let b := rk.toList.getD (i / 4) .zero
  match i % 4 with
  | 0 => b.c0
  | 1 => b.c1
  | 2 => b.c2
  | _ => b.c3

/-- The WM windows a command reads, as address and length (20_memory.md R59). -/
def readWindows : Instr → List (Nat × Nat)
  | .expand _ => [(0x000, 16)]
  | .clear _ => []
  | .encrypt _ src _ => [(src, 16)]
  | .b64enc src _ n => [(src, 3 * n)]
  | .b64dec src _ n => [(src, 4 * n)]
  | .hexenc src _ n => [(src, n)]
  | .hexdec _ src _ n => [(src, 2 * n)]
  | .mint _ => [(0x040, 36), (0x030, 1)]
  | .validate _ => [(0x100 + 57, 24), (0x100 + 93, 24), (0x100 + 134, 44)]

/-- The WM window a command stores to, as address and length (20_memory.md R59). -/
def storeWindow : Instr → Nat × Nat
  | .expand _ => (0x000, 16)
  | .clear _ => (0, 0)
  | .encrypt _ _ dst => (dst, 16)
  | .b64enc _ dst n => (dst, 4 * n)
  | .b64dec _ dst n => (dst, 3 * n)
  | .hexenc _ dst n => (dst, 2 * n)
  | .hexdec _ _ dst n => (dst, n)
  | .mint _ => (0x100, 179)
  | .validate _ => (0, 0)

def inWindow (w : Nat × Nat) (b : Nat) : Prop := w.1 ≤ b ∧ b < w.1 + w.2

/-- The slot a command may write (10_state.md R33). -/
def writesSlot : Instr → Option Nat
  | .expand slot => some slot
  | .clear slot => some slot
  | .encrypt _ _ _ => none
  | .b64enc _ _ _ => none
  | .b64dec _ _ _ => none
  | .hexenc _ _ _ => none
  | .hexdec _ _ _ _ => none
  | .mint _ => none
  | .validate _ => none

/-- The commands whose results depend on round keys (10_state.md R34). -/
def usesRoundKeys : Instr → Bool
  | .expand _ => false
  | .clear _ => false
  | .encrypt _ _ _ => true
  | .b64enc _ _ _ => false
  | .b64dec _ _ _ => false
  | .hexenc _ _ _ => false
  | .hexdec _ _ _ _ => false
  | .mint _ => true
  | .validate _ => true

/-- What two runs of one command answer when they may differ in WM bytes it does not read (20_memory.md R59): the
same stop, or next states that differ in WM alone and have stored the same bytes or none. -/
def SameOutcomeButWm (i : Instr) (m m' : Memory) : Result → Result → Prop
  | .next t, .next t' =>
    t' = { t with wm := t'.wm } ∧
      ((t.wm = m ∧ t'.wm = m') ∨ ∀ b, inWindow (storeWindow i) b → t.wm.read b = t'.wm.read b)
  | .fault a, .fault b => a = b
  | .refused a, .refused b => a = b
  | _, _ => False

/-- The three decoded fields of a token, 32 bytes in all (44_token_validator.md R205). -/
def decodeToken (al : B64Alphabet) (tok : List Byte) : List Byte × List Byte × List Byte :=
  (decF al (slice tok 57 81), decF al (slice tok 93 117), decT al (slice tok 134 178))

/-- The invariant of the block's state. -/
structure State.Inv (s : State) : Prop where
  /-- WM is in its canonical form and inside its 512 bytes (10_state.md R30). -/
  wmWf : s.wm.wf = true
  /-- A slot at or above NUM_SLOTS is absent (10_state.md R29). -/
  absentEmpty : ∀ k, s.cfg.numSlots ≤ k → s.slot k = KeySlot.empty
  /-- A slot that is not valid holds no key material (40_key_schedule.md R106). -/
  invalidEmpty : ∀ k, (s.slot k).valid = false → s.slot k = KeySlot.empty
  /-- A valid slot holds the schedule of the key that is its round key 0 (10_state.md R33). -/
  validExpanded : ∀ k, (s.slot k).valid = true → (s.slot k).rk = keyExpansion ((s.slot k).rk[0])
  /-- ERR holds a code that some command writes (60_exceptions.md R220, R230). -/
  errWritten : s.err ∈ writtenCodes
  /-- RESULT is 1 only after an authentic VALIDATE, whose code is 0 (10_state.md R27). -/
  resultOk : s.result = true → s.err = 0
  /-- Only a MINT whose checks all pass is ever held, and RESULT is 0 meanwhile (10_state.md R26, R27). -/
  heldMint : ∀ i, s.latched = some i →
    s.result = false ∧ ∃ slot ident id8 cap, i = .mint slot ∧ MintReady s slot ident id8 cap

/-- `k` steps, stopping at the first fault or refusal. -/
def runSteps : Nat → State → Result
  | 0, s => .next s
  | k + 1, s =>
    match step s with
    | .next t => runSteps k t
    | .fault f => .fault f
    | .refused r => .refused r

/-- Two states that a host cannot tell apart by KEYV: they differ at most in the round keys of slots
(10_state.md R34). -/
def SameButRoundKeys (s t : State) : Prop :=
  t = { s with slots := t.slots } ∧ ∀ k, (t.slot k).valid = (s.slot k).valid

/-- Two outcomes agree up to the round keys of slots. -/
def SameOutcomeButRoundKeys : Result → Result → Prop
  | .next s, .next t => SameButRoundKeys s t
  | .fault a, .fault b => a = b
  | .refused a, .refused b => a = b
  | _, _ => False

end Sys2Proof.Machine
end

