-- ==== Sys2Proof/Certificates/Slice0/Obligations.lean ====
section
/-! DEFINITION. The statements about the model, from the numbered rules of the spec. -/

open Sys2Proof Sys2Proof.Machine

/-! ## Encoding -/

/-- Decoding an encoded well-formed command that exists in the build gives it back (30_encoding.md R81, R87, R88). -/
def Obligations.DecodeOfEncodeIsTheCommand : Prop :=
  ∀ (cfg : Config) (i : Instr), i.wellFormed = true → (i.isComponent = true → cfg.componentCmds = true) →
    decode cfg (encode i) = .instr i

/-- Every word that decodes is the encoding of what it decodes to, a well-formed command: no bit of a word is
dropped (30_encoding.md R83, R87). -/
def Obligations.EncodeOfDecodeIsTheWord : Prop :=
  ∀ (cfg : Config) (w : Word) (i : Instr), decode cfg w = .instr i →
    i.wellFormed = true ∧ encode i = w ∧ (i.isComponent = true → cfg.componentCmds = true)

/-- With component commands, a word decodes exactly when some row selects it, and then to that row's command; no two
rows select one word (30_encoding.md R82). -/
def Obligations.OneRowSelectsEachLegalWord : Prop :=
  ∀ (cfg : Config) (w : Word), cfg.componentCmds = true →
    ((∃ i, decode cfg w = .instr i) ↔ ∃ r ∈ opcodeRows, r.selects w = true) ∧
    (∀ i, decode cfg w = .instr i → (opcodeRow i).selects w = true) ∧
    (∀ r ∈ opcodeRows, ∀ r' ∈ opcodeRows, r.selects w = true → r'.selects w = true → r = r')

/-- An illegal word raises IllegalCommand and changes nothing but the flags (30_encoding.md R84). -/
def Obligations.IllegalWordsRaiseIllegalCommand : Prop :=
  ∀ (s : State) (rest : List Event) (w : Word), s.latched = none → s.events = wr32 0x200 w :: rest →
    (fieldOp w = 0 ∨ 10 ≤ fieldOp w ∨ fieldRsv w ≠ 0 ∨
      (fieldOp w ∈ [1, 2, 8, 9] ∧ (fieldS w ≠ 0 ∨ fieldSrc w ≠ 0 ∨ fieldDst w ≠ 0 ∨ fieldN w ≠ 0)) ∨
      (fieldOp w = 3 ∧ (fieldS w ≠ 0 ∨ fieldN w ≠ 0)) ∨
      (fieldOp w ∈ [4, 5, 6] ∧ (fieldSlot w ≠ 0 ∨ fieldS w ≠ 0)) ∨
      (fieldOp w = 7 ∧ fieldSlot w ≠ 0) ∨
      (3 ≤ fieldOp w ∧ fieldOp w ≤ 7 ∧ s.cfg.componentCmds = false)) →
    step s = .next { s with events := rest, latched := none, result := false, err := 6 }

/-- Without component commands the opcodes 0x3 to 0x7 are illegal whatever the other fields hold, and the public
commands decode as before (30_encoding.md R85). -/
def Obligations.ComponentOpcodesGoWithTheParameter : Prop :=
  ∀ (cfg : Config) (w : Word),
    (cfg.componentCmds = false → 3 ≤ fieldOp w → fieldOp w ≤ 7 → ∃ why, decode cfg w = .illegal why) ∧
    (fieldOp w < 3 ∨ 7 < fieldOp w → decode cfg w = decode { cfg with componentCmds := true } w)

/-- A few words of 30_encoding.md R88, one for each command, decode as its table says. -/
def Obligations.WordsOfTheManualDecode : Prop :=
  decodeTableWord 32 0x00000031 = some (.expand 3) ∧
  decodeTableWord 32 0x00000012 = some (.clear 1) ∧
  decodeTableWord 32 0x01208003 = some (.encrypt 0 0x080 0x090) ∧
  decodeTableWord 32 0x05208004 = some (.b64enc 0x080 0x090 1) ∧
  decodeTableWord 32 0x05409005 = some (.b64dec 0x090 0x0A0 1) ∧
  decodeTableWord 32 0x0D60A006 = some (.hexenc 0x0A0 0x0B0 3) ∧
  decodeTableWord 32 0x0D80B047 = some (.hexdec true 0x0B0 0x0C0 3) ∧
  decodeTableWord 32 0x00000008 = some (.mint 0) ∧
  decodeTableWord 32 0x00000019 = some (.validate 1) ∧
  decodeTableWord 32 0x04000001 = none

/-! ## A step -/

/-- A word written to CMD while the core is idle is decoded and executed: the step is exec of the decoded command,
with the host's write taken off the listed moves (10_state.md R24). -/
def Obligations.CommandWriteRunsTheDecodedCommand : Prop :=
  ∀ (s : State) (rest : List Event) (w : Word) (i : Instr), s.latched = none →
    s.events = wr32 0x200 w :: rest → decode s.cfg w = .instr i →
    step s = exec i { s with events := rest }

/-! ## The commands -/

/-- EXPAND (40_key_schedule.md R105). -/
def Obligations.ExpandBuildsTheScheduleAndZeroesKey : Prop :=
  ∀ (s : State) (slot : Nat),
    EncodedBy s.cfg (.expand slot) 1 slot 0 0 0 0 ∧
    (s.cfg.numSlots ≤ slot → exec (.expand slot) s = .next { s with latched := none, result := false, err := 8 }) ∧
    (slot < s.cfg.numSlots → s.wm.readBytes 0x000 16 = none →
      exec (.expand slot) s = .fault (.unwrittenRead 0x000 16)) ∧
    (∀ k, slot < s.cfg.numSlots → s.wm.readBytes 0x000 16 = some k →
      ∃ t, exec (.expand slot) s = .next t ∧
        t = { s with wm := t.wm, slots := t.slots, latched := none, result := false, err := 0 } ∧
        t.slot slot = ⟨true, keyExpansion (Block.ofBytes k)⟩ ∧ t.keyv slot = true ∧
        (∀ j, j ≠ slot → t.slot j = s.slot j) ∧ Stored s t 0x000 (List.replicate 16 0))

/-- CLEAR (40_key_schedule.md R106). -/
def Obligations.ClearDestroysTheSchedule : Prop :=
  ∀ (s : State) (slot : Nat),
    EncodedBy s.cfg (.clear slot) 2 slot 0 0 0 0 ∧
    (s.cfg.numSlots ≤ slot → exec (.clear slot) s = .next { s with latched := none, result := false, err := 8 }) ∧
    (slot < s.cfg.numSlots →
      ∃ t, exec (.clear slot) s = .next t ∧
        t = { s with slots := t.slots, latched := none, result := false, err := 0 } ∧
        t.slot slot = ⟨false, RoundKeys.zero⟩ ∧ t.keyv slot = false ∧ (∀ j, j ≠ slot → t.slot j = s.slot j))

/-- ENCRYPT, its errors in their priority (41_cipher.md R130). -/
def Obligations.EncryptStoresTheCiphertext : Prop :=
  ∀ (s : State) (slot src dst : Nat),
    EncodedBy s.cfg (.encrypt slot src dst) 3 slot 0 src dst 0 ∧
    (s.cfg.componentCmds = false →
      exec (.encrypt slot src dst) s = .next { s with latched := none, result := false, err := 6 }) ∧
    (s.cfg.componentCmds = true → s.cfg.numSlots ≤ slot →
      exec (.encrypt slot src dst) s = .next { s with latched := none, result := false, err := 8 }) ∧
    (s.cfg.componentCmds = true → slot < s.cfg.numSlots → (512 < src + 16 ∨ 512 < dst + 16) →
      exec (.encrypt slot src dst) s = .next { s with latched := none, result := false, err := 7 }) ∧
    (s.cfg.componentCmds = true → slot < s.cfg.numSlots → src + 16 ≤ 512 → dst + 16 ≤ 512 →
      s.keyv slot = false →
      exec (.encrypt slot src dst) s = .next { s with latched := none, result := false, err := 5 }) ∧
    (s.cfg.componentCmds = true → slot < s.cfg.numSlots → src + 16 ≤ 512 → dst + 16 ≤ 512 →
      s.keyv slot = true → s.wm.readBytes src 16 = none →
      exec (.encrypt slot src dst) s = .fault (.unwrittenRead src 16)) ∧
    (∀ p, s.cfg.componentCmds = true → slot < s.cfg.numSlots → src + 16 ≤ 512 → dst + 16 ≤ 512 →
      s.keyv slot = true → s.wm.readBytes src 16 = some p →
      ∃ t, exec (.encrypt slot src dst) s = .next t ∧
        t = { s with wm := t.wm, latched := none, result := false, err := 0 } ∧
        Stored s t dst (cipher (s.slot slot).rk (Block.ofBytes p)).toBytes)

/-- B64ENC (42_codec.md R148). -/
def Obligations.B64encStoresTheCharacters : Prop :=
  ∀ (s : State) (src dst n : Nat),
    EncodedBy s.cfg (.b64enc src dst n) 4 0 0 src dst n ∧
    CodecMeaning (.b64enc src dst n) s src (3 * n) dst (4 * n) (b64Enc s.cfg.alphabet) ∧
    (s.cfg.componentCmds = true → src ≤ 511 → dst ≤ 511 → n = 0 →
      exec (.b64enc src dst n) s = .next { s with latched := none, result := false, err := 0 })

/-- B64DEC; it never fails on data (42_codec.md R149). -/
def Obligations.B64decStoresTheBytes : Prop :=
  ∀ (s : State) (src dst n : Nat),
    EncodedBy s.cfg (.b64dec src dst n) 5 0 0 src dst n ∧
    CodecMeaning (.b64dec src dst n) s src (4 * n) dst (3 * n) (b64Dec s.cfg.alphabet) ∧
    (s.cfg.componentCmds = true → src ≤ 511 → dst ≤ 511 → n = 0 →
      exec (.b64dec src dst n) s = .next { s with latched := none, result := false, err := 0 })

/-- HEXENC (42_codec.md R150). -/
def Obligations.HexencStoresTheDigits : Prop :=
  ∀ (s : State) (src dst n : Nat),
    EncodedBy s.cfg (.hexenc src dst n) 6 0 0 src dst n ∧
    CodecMeaning (.hexenc src dst n) s src n dst (2 * n) hexEnc ∧
    (s.cfg.componentCmds = true → src ≤ 511 → dst ≤ 511 → n = 0 →
      exec (.hexenc src dst n) s = .next { s with latched := none, result := false, err := 0 })

/-- HEXDEC, tolerant and strict; one bad character fails the strict form whole (42_codec.md R151). -/
def Obligations.HexdecStoresTheBytes : Prop :=
  ∀ (s : State) (src dst n : Nat),
    EncodedBy s.cfg (.hexdec false src dst n) 7 0 0 src dst n ∧
    EncodedBy s.cfg (.hexdec true src dst n) 7 0 1 src dst n ∧
    CodecMeaning (.hexdec false src dst n) s src (2 * n) dst n hexDecT ∧
    (∀ c, s.wm.readBytes src (2 * n) = some c → (∀ x ∈ c, isHexDigit x = true) →
      CodecMeaning (.hexdec true src dst n) s src (2 * n) dst n hexDecT) ∧
    (s.wm.readBytes src (2 * n) = none →
      CodecMeaning (.hexdec true src dst n) s src (2 * n) dst n hexDecT) ∧
    (∀ c x, s.wm.readBytes src (2 * n) = some c → x ∈ c → isHexDigit x = false →
      (s.cfg.componentCmds = false →
        exec (.hexdec true src dst n) s = .next { s with latched := none, result := false, err := 6 }) ∧
      (s.cfg.componentCmds = true → (512 < src + 2 * n ∨ 512 < dst + n) →
        exec (.hexdec true src dst n) s = .next { s with latched := none, result := false, err := 7 }) ∧
      (s.cfg.componentCmds = true → src + 2 * n ≤ 512 → dst + n ≤ 512 →
        exec (.hexdec true src dst n) s = .next { s with latched := none, result := false, err := 1 })) ∧
    (∀ strict, s.cfg.componentCmds = true → src ≤ 511 → dst ≤ 511 → n = 0 →
      exec (.hexdec strict src dst n) s = .next { s with latched := none, result := false, err := 0 })

/-- MINT: its errors in their priority, the hold on Wait, the failure on Fail, and the token on Bytes
(43_token_minter.md R182). That a malformed identifier raises MalformedIdentifier also when CAP is unwritten is DEDUCED,
log entry 11; that requests are numbered is log entry 6. -/
def Obligations.MintWritesTheToken : Prop :=
  ∀ (s : State) (slot : Nat),
    EncodedBy s.cfg (.mint slot) 8 slot 0 0 0 0 ∧
    (s.cfg.numSlots ≤ slot → exec (.mint slot) s = .next { s with latched := none, result := false, err := 8 }) ∧
    (slot < s.cfg.numSlots → s.keyv slot = false →
      exec (.mint slot) s = .next { s with latched := none, result := false, err := 5 }) ∧
    (slot < s.cfg.numSlots → s.keyv slot = true → s.wm.readBytes 0x040 36 = none →
      exec (.mint slot) s = .fault (.unwrittenRead 0x040 36)) ∧
    (∀ ident, slot < s.cfg.numSlots → s.keyv slot = true → s.wm.readBytes 0x040 36 = some ident →
      idExtract ident = none →
      exec (.mint slot) s = .next { s with latched := none, result := false, err := 1 }) ∧
    (∀ ident id8, slot < s.cfg.numSlots → s.keyv slot = true → s.wm.readBytes 0x040 36 = some ident →
      idExtract ident = some id8 → s.wm.readBytes 0x030 1 = none →
      exec (.mint slot) s = .fault (.unwrittenRead 0x030 1)) ∧
    (∀ ident id8 cap, MintReady s slot ident id8 cap →
      (∀ rest, s.entropy = .wait :: rest →
        ∃ t, exec (.mint slot) s = .next t ∧
          t = { s with entropy := rest, latched := some (.mint slot), result := t.result }) ∧
      (∀ rest, s.entropy = .fail :: rest →
        exec (.mint slot) s = .next { s with
          entropy := rest, request := s.request + 1, latched := none, result := false, err := 2 }) ∧
      (∀ nonce rest, s.entropy = .bytes nonce :: rest →
        ∃ t, exec (.mint slot) s = .next t ∧
          t = { s with
            wm := t.wm, entropy := rest, request := s.request + 1, latched := none, result := false, err := 0 } ∧
          (tokenImage s.cfg.alphabet id8 (cap ++ nonce.toBytes)
            (cipherBytes (s.slot slot).rk (id8 ++ cap ++ nonce.toBytes))).length = 179 ∧
          Stored s t 0x100 (tokenImage s.cfg.alphabet id8 (cap ++ nonce.toBytes)
            (cipherBytes (s.slot slot).rk (id8 ++ cap ++ nonce.toBytes)))))

/-- VALIDATE: its errors, and its two outcomes by the equality of the recomputed and the embedded tag
(44_token_validator.md R200). -/
def Obligations.ValidateComparesTheTags : Prop :=
  ∀ (s : State) (slot : Nat),
    EncodedBy s.cfg (.validate slot) 9 slot 0 0 0 0 ∧
    (s.cfg.numSlots ≤ slot →
      exec (.validate slot) s = .next { s with latched := none, result := false, err := 8 }) ∧
    (slot < s.cfg.numSlots → s.keyv slot = false →
      exec (.validate slot) s = .next { s with latched := none, result := false, err := 5 }) ∧
    (slot < s.cfg.numSlots → s.keyv slot = true →
      (s.wm.readBytes (0x100 + 57) 24 = none ∨ s.wm.readBytes (0x100 + 93) 24 = none ∨
        s.wm.readBytes (0x100 + 134) 44 = none) →
      ∃ a n, exec (.validate slot) s = .fault (.unwrittenRead a n) ∧ (a, n) ∈ readWindows (.validate slot) ∧
        s.wm.readBytes a n = none) ∧
    (∀ sub jti tag, slot < s.cfg.numSlots → s.keyv slot = true → s.wm.readBytes (0x100 + 57) 24 = some sub →
      s.wm.readBytes (0x100 + 93) 24 = some jti → s.wm.readBytes (0x100 + 134) 44 = some tag →
      (cipherBytes (s.slot slot).rk (decF s.cfg.alphabet sub ++ decF s.cfg.alphabet jti) = decT s.cfg.alphabet tag →
        exec (.validate slot) s = .next { s with latched := none, result := true, err := 0 }) ∧
      (cipherBytes (s.slot slot).rk (decF s.cfg.alphabet sub ++ decF s.cfg.alphabet jti) ≠ decT s.cfg.alphabet tag →
        exec (.validate slot) s = .next { s with latched := none, result := false, err := 3 }))

/-! ## Errors, codes and frames of all commands -/

/-- A command that ends in an error changes no byte of WM and no key slot (20_memory.md R62). -/
def Obligations.ErrorsChangeNoByteAndNoSlot : Prop :=
  ∀ (i : Instr) (s t : State), exec i s = .next t → t.latched = none → t.err ≠ 0 →
    t.wm = s.wm ∧ t.slots = s.slots ∧ t.result = false

/-- Which code each command can end with; RESULT is 1 only after a VALIDATE that ends with code 0 (the impossible
entries of 60_exceptions.md R221). -/
def Obligations.CommandsEndWithTheirCodesOnly : Prop :=
  ∀ (i : Instr) (s t : State), exec i s = .next t → t.latched = none →
    (∃ e ∈ possibleCodes i, t.err = e.code) ∧
    (t.result = true ↔ (∃ slot, i = .validate slot) ∧ t.err = 0)

/-- What a command leaves alone: the parameters, the moves still listed, the last value read, every WM byte outside
the window it stores to, every slot but the one EXPAND or CLEAR names, and, but for MINT, the entropy answers and the
number of the next entropy request. -/
def Obligations.CommandsLeaveTheRestAlone : Prop :=
  ∀ (i : Instr) (s t : State), exec i s = .next t →
    t.cfg = s.cfg ∧ t.events = s.events ∧ t.readout = s.readout ∧
    (∀ b, ¬ inWindow (storeWindow i) b → t.wm.read b = s.wm.read b) ∧
    (∀ k, writesSlot i ≠ some k → t.slot k = s.slot k) ∧
    ((∀ slot, i ≠ .mint slot) → t.entropy = s.entropy ∧ t.request = s.request ∧ t.latched = none)

/-- Two states that agree on the windows a command reads give outcomes that differ only in bytes it neither reads
nor stores (20_memory.md R59). -/
def Obligations.CommandsReadTheirWindowsOnly : Prop :=
  ∀ (i : Instr) (s : State) (m : Memory),
    (∀ w ∈ readWindows i, ∀ b, inWindow w b → s.wm.read b = m.read b) →
    SameOutcomeButWm i s.wm m (exec i s) (exec i { s with wm := m })

/-- A successful EXPAND zeroes KEY, so an EXPAND straight after it expands the all-zero key
(70_reset_and_hazards.md R254). -/
def Obligations.SecondExpandExpandsTheZeroKey : Prop :=
  ∀ (s t : State) (slot slot' : Nat), exec (.expand slot) s = .next t → t.err = 0 → slot' < s.cfg.numSlots →
    t.wm.readBytes 0x000 16 = some (List.replicate 16 0) ∧
    ∃ u, exec (.expand slot') t = .next u ∧ u.err = 0 ∧ u.slot slot' = ⟨true, keyExpansion Block.zero⟩

/-! ## The units -/

/-- The key schedule, word by word (40_key_schedule.md R101). -/
def Obligations.KeyExpansionFollowsTheWordRecurrence : Prop :=
  ∀ k : Block,
    (keyExpansion k)[0] = k ∧
    ∀ i, 4 ≤ i → i ≤ 43 →
      scheduleWord (keyExpansion k) i = (scheduleWord (keyExpansion k) (i - 4)).xor
        (if i % 4 = 0 then
          (subWord (rotWord (scheduleWord (keyExpansion k) (i - 1)))).xor ⟨rcon (i / 4), 0, 0, 0⟩
        else scheduleWord (keyExpansion k) (i - 1))

/-- The S-box is the inverse in GF(2^8) and an affine map; it is a permutation without fixed points
(41_cipher.md R123). -/
def Obligations.SboxIsInverseThenAffine : Prop :=
  (∀ x : Byte, ∃ b : Byte, ((x = 0 ∧ b = 0) ∨ gfMul x b = 1) ∧
    sbox x = b ^^^ b.rotateLeft 1 ^^^ b.rotateLeft 2 ^^^ b.rotateLeft 3 ^^^ b.rotateLeft 4 ^^^ 0x63) ∧
  (∀ x y : Byte, sbox x = sbox y → x = y) ∧
  (∀ x : Byte, sbox x ≠ x ∧ sbox x ≠ x ^^^ 0xFF) ∧ gfMul 0x53 0xCA = 1 ∧ sbox 0x53 = 0xED

/-- MixColumns with the products of 41_cipher.md R121 (R128). -/
def Obligations.MixColumnsIsTheMatrixProduct : Prop :=
  (⟨0xdb, 0x13, 0x53, 0x45⟩ : Column).mix = ⟨0x8e, 0x4d, 0xa1, 0xbc⟩ ∧
  ∀ s : Block, mixColumns s = ⟨s.c0.mix, s.c1.mix, s.c2.mix, s.c3.mix⟩ ∧ ∀ a : Column, a.mix =
    ⟨gfMul 2 a.b0 ^^^ gfMul 3 a.b1 ^^^ a.b2 ^^^ a.b3, a.b0 ^^^ gfMul 2 a.b1 ^^^ gfMul 3 a.b2 ^^^ a.b3,
      a.b0 ^^^ a.b1 ^^^ gfMul 2 a.b2 ^^^ gfMul 3 a.b3, gfMul 3 a.b0 ^^^ a.b1 ^^^ a.b2 ^^^ gfMul 2 a.b3⟩

/-- ShiftRows by byte index (41_cipher.md R127). -/
def Obligations.ShiftRowsRotatesTheRows : Prop :=
  ∀ (s : Block) (r c : Nat), r < 4 → c < 4 →
    (shiftRows s).toBytes[r + 4 * c]? = s.toBytes[r + 4 * ((c + r) % 4)]?

/-- The decode map of base64 (42_codec.md R143). -/
def Obligations.SextetIsTheIndexOrZero : Prop :=
  ∀ (al : B64Alphabet) (c : Byte),
    (∀ i : BitVec 6, c = alphaChar al i → sextet al c = i) ∧
    ((∀ i : BitVec 6, c ≠ alphaChar al i) → sextet al c = 0)

/-- The laws of the codec functions (42_codec.md R152). -/
def Obligations.CodecFunctionsObeyTheirLaws : Prop :=
  ∀ al : B64Alphabet,
    (∀ x, x.length % 3 = 0 → b64Dec al (b64Enc al x) = x) ∧
    (∀ x, hexDecT (hexEnc x) = x ∧ hexDecS (hexEnc x) = some x) ∧
    (∀ c, c.length % 4 = 0 →
      (b64Enc al (b64Dec al c) = c ↔ ∀ x ∈ c, ∃ i, alphaChar al i = x) ∧
      b64Enc al (b64Dec al c) = c.map fun x => if alphaChar al (sextet al x) = x then x else 0x41) ∧
    (∀ c, c.length % 2 = 0 →
      (hexEnc (hexDecT c) = c ↔ ∀ x ∈ c, isHexDigit x = true) ∧
      hexEnc (hexDecT c) = c.map fun x => if isHexDigit x = true then x else 0x30) ∧
    (∀ x y, x.length % 3 = 0 → y.length % 3 = 0 → b64Enc al x = b64Enc al y → x = y) ∧
    (∀ x y, hexEnc x = hexEnc y → x = y) ∧
    (∃ c d, c.length = 4 ∧ d.length = 4 ∧ c ≠ d ∧ b64Dec al c = b64Dec al d) ∧
    (∃ c d, c.length = 2 ∧ d.length = 2 ∧ c ≠ d ∧ hexDecT c = hexDecT d)

/-- The identifier extraction consumes characters 19 to 22 and 24 to 35 and examines no other
(43_token_minter.md R180). -/
def Obligations.IdExtractExaminesSixteenCharacters : Prop :=
  ∀ ident : List Byte, ident.length = 36 →
    (idExtract ident = none ↔
      ∃ i x, ((19 ≤ i ∧ i ≤ 22) ∨ (24 ≤ i ∧ i ≤ 35)) ∧ ident[i]? = some x ∧ isHexDigit x = false) ∧
    (∀ id8, idExtract ident = some id8 →
      id8.length = 8 ∧ hexEnc id8 = slice ident 19 23 ++ slice ident 24 36) ∧
    (∀ ident' : List Byte, ident'.length = 36 →
      (∀ i, ((19 ≤ i ∧ i ≤ 22) ∨ (24 ≤ i ∧ i ≤ 35)) → ident[i]? = ident'[i]?) → idExtract ident' = idExtract ident)

/-- The token image is the three base64 segments, the dots and the NUL (43_token_minter.md R177). -/
def Obligations.TokenImageIsTheThreeSegments : Prop :=
  ∀ (al : B64Alphabet) (id8 cn8 tag : List Byte), id8.length = 8 → cn8.length = 8 → tag.length = 16 →
    tokenImage al id8 cn8 tag =
      b64Enc al header ++ [dot] ++ b64Enc al (payload (hexEnc id8) (hexEnc cn8)) ++ [dot] ++ encT al tag ++ [0] ∧
    slice (tokenImage al id8 cn8 tag) 57 81 = encF al id8 ∧
    slice (tokenImage al id8 cn8 tag) 93 117 = encF al cn8 ∧
    slice (tokenImage al id8 cn8 tag) 134 178 = encT al tag ∧
    (∀ i, ¬ (57 ≤ i ∧ i < 81) → ¬ (93 ≤ i ∧ i < 117) → ¬ (134 ≤ i ∧ i < 178) →
      (tokenImage al id8 cn8 tag)[i]? = template[i]?)

/-! ## The token end to end -/

/-- After a MINT with a slot succeeds, a VALIDATE with that slot sets RESULT = 1 (44_token_validator.md R204): in any
state that has kept TOKBUF, the slot's round keys and the parameters. -/
def Obligations.MintedTokenValidates : Prop :=
  ∀ (s t u : State) (slot : Nat), exec (.mint slot) s = .next t → t.latched = none → t.err = 0 →
    u.cfg = t.cfg → u.slot slot = t.slot slot → (∀ b, 0x100 ≤ b → b < 0x100 + 179 → u.wm.read b = t.wm.read b) →
    exec (.validate slot) u = .next { u with latched := none, result := true, err := 0 }

/-- What two MINTs of the same identifier and capability under the same schedule share, and where they differ
(43_token_minter.md R184). -/
def Obligations.MintsOfOnePairDifferByNonceAlone : Prop :=
  ∀ (s s' t t' : State) (slot : Nat) (ident id8 cap : List Byte) (nonce nonce' : Nonce)
    (rest rest' : List EntropyAnswer),
    MintReady s slot ident id8 cap → MintReady s' slot ident id8 cap →
    s.slot slot = s'.slot slot → s.cfg.alphabet = s'.cfg.alphabet →
    s.entropy = .bytes nonce :: rest → s'.entropy = .bytes nonce' :: rest' →
    exec (.mint slot) s = .next t → exec (.mint slot) s' = .next t' →
    (∀ b, (b < 0x100 ∨ 0x100 + 179 ≤ b) → t.wm.read b = s.wm.read b ∧ t'.wm.read b = s'.wm.read b) ∧
    ∃ tok tok', t.wm.readBytes 0x100 179 = some tok ∧ t'.wm.readBytes 0x100 179 = some tok' ∧
      (∀ i, ¬ (93 ≤ i ∧ i < 117) → ¬ (134 ≤ i ∧ i < 178) → tok[i]? = tok'[i]?) ∧
      (slice tok 93 117 = slice tok' 93 117 ↔ nonce = nonce') ∧
      (nonce = nonce' → tok = tok') ∧
      b64Dec s.cfg.alphabet (slice tok 57 81) =
        [quote] ++ (slice ident 19 23 ++ slice ident 24 36) ++ [quote]

/-- The outcome of VALIDATE depends on a token through its decoded fields alone, and a token whose tag part alone is
changed never validates (44_token_validator.md R205, parts 1 and 2). -/
def Obligations.DecodedFieldsDecideModifiedTokens : Prop :=
  ∀ (s : State) (m : Memory) (slot : Nat) (tok tok' : List Byte),
    slot < s.cfg.numSlots → s.keyv slot = true →
    s.wm.readBytes 0x100 179 = some tok → m.readBytes 0x100 179 = some tok' →
    exec (.validate slot) s = .next { s with latched := none, result := true, err := 0 } →
    (decodeToken s.cfg.alphabet tok' = decodeToken s.cfg.alphabet tok →
      exec (.validate slot) { s with wm := m } =
        .next { s with wm := m, latched := none, result := true, err := 0 }) ∧
    ((decodeToken s.cfg.alphabet tok').1 = (decodeToken s.cfg.alphabet tok).1 →
      (decodeToken s.cfg.alphabet tok').2.1 = (decodeToken s.cfg.alphabet tok).2.1 →
      (decodeToken s.cfg.alphabet tok').2.2 ≠ (decodeToken s.cfg.alphabet tok).2.2 →
      exec (.validate slot) { s with wm := m } =
        .next { s with wm := m, latched := none, result := false, err := 3 })

/-! ## The held MINT and the entropy source -/

/-- While the source answers Wait, or has not answered, a held MINT changes nothing; reset abandons it
(60_exceptions.md R237). That an empty list stands for a source that has not answered is the model's choice, log
entry 5; that RESULT is 0 meanwhile is log entry 17. -/
def Obligations.HeldMintWaitsUnchanged : Prop :=
  ∀ (s : State) (slot : Nat) (ident id8 cap : List Byte) (rest : List Event),
    MintReady s slot ident id8 cap → s.latched = some (.mint slot) → s.result = false →
    (s.events = .coreTurn :: rest → s.entropy = [] → step s = .next { s with events := rest }) ∧
    (∀ answers, s.events = .coreTurn :: rest → s.entropy = .wait :: answers →
      step s = .next { s with events := rest, entropy := answers }) ∧
    (s.events = .reset :: rest → ∃ t, step s = .next t ∧ t.latched = none ∧ t.events = rest)

/-- Any number of Waits ends with the token when Bytes comes at last: the hold has no limit (60_exceptions.md R237).
That each repeated request takes one answer from the list is the model's choice, log entry 5; that a step with no move
listed is the core's turn is log entry 10. -/
def Obligations.MintOutlastsAnyNumberOfWaits : Prop :=
  ∀ (n : Nat) (s : State) (slot : Nat) (ident id8 cap : List Byte) (nonce : Nonce) (rest : List EntropyAnswer),
    MintReady s slot ident id8 cap → s.latched = some (.mint slot) → s.result = false → s.events = [] →
    s.entropy = List.replicate n .wait ++ .bytes nonce :: rest →
    runSteps n s = .next { s with entropy := .bytes nonce :: rest } ∧
    ∃ t, runSteps (n + 1) s = .next t ∧
      t = { s with wm := t.wm, entropy := rest, request := s.request + 1, latched := none, err := 0 } ∧
      Stored s t 0x100 (tokenImage s.cfg.alphabet id8 (cap ++ nonce.toBytes)
        (cipherBytes (s.slot slot).rk (id8 ++ cap ++ nonce.toBytes)))

/-- An entropy answer reaches the request it belongs to, if that is outstanding, and is otherwise ignored
(60_exceptions.md R236, 70_reset_and_hazards.md R250). That requests are numbered, and that an answer to no outstanding
request is ignored also when no reset withdrew it, is the model's choice, log entry 6. -/
def Obligations.EntropyAnswersReachTheirRequestOnly : Prop :=
  ∀ (s : State) (rest : List Event) (n : Nat) (a : EntropyAnswer), s.events = .entropyAnswer n a :: rest →
    (s.latched = none → step s = .next { s with events := rest }) ∧
    (n ≠ s.request → step s = .next { s with events := rest }) ∧
    (∀ i, s.latched = some i → n = s.request →
      step s = exec i { s with events := rest, entropy := a :: s.entropy }) ∧
    (∀ slot ident id8 cap, MintReady s slot ident id8 cap → s.latched = some (.mint slot) → n = s.request →
      ∃ t, step s = .next t ∧ t.events = rest ∧ t.entropy = s.entropy ∧
        (a = .wait → t.latched = s.latched ∧ t.request = s.request) ∧
        (a ≠ .wait → t.latched = none ∧ t.request = s.request + 1))

/-- WAIT reads STATUS until BUSY reads 0 (30_encoding.md R89). That the core has one turn between two reads is the
model's choice, log entry 10. -/
def Obligations.WaitReadsStatusUntilIdle : Prop :=
  ∀ (s : State) (rest : List Event), s.events = .waitIdle :: rest →
    (s.latched = none → step s = .next { s with events := rest, readout := some s.statusWord }) ∧
    (s.latched ≠ none →
      step s = .next { s with events := .coreTurn :: .waitIdle :: rest, readout := some s.statusWord })

/-! ## The host register space -/

/-- The accesses of 20_memory.md R55 are refused. -/
def Obligations.UnsupportedAccessesAreRefused : Prop :=
  ∀ (s : State) (rest : List Event) (a : Access) (width : Width) (off : Offset),
    s.events = .access a :: rest → (a = .read width off ∨ ∃ v, a = .write width off v) →
    ((width = .word ∧ off.toNat % 4 ≠ 0) ∨ width = .half ∨ width = .other ∨
      (width = .byte ∧ 0x200 ≤ off.toNat ∧ off.toNat < 0x20C)) →
    step s = .refused (.unsupportedAccess a)

/-- The accesses of 20_memory.md R54 are accepted by an idle block: no step of them is refused. -/
def Obligations.SupportedAccessesAreAccepted : Prop :=
  ∀ (s : State) (rest : List Event) (a : Access) (width : Width) (off : Offset),
    s.events = .access a :: rest → (a = .read width off ∨ ∃ v, a = .write width off v) → s.latched = none →
    ((width = .byte ∧ (off.toNat < 0x200 ∨ 0x20C ≤ off.toNat)) ∨ (width = .word ∧ off.toNat % 4 = 0)) →
    ∀ r, step s ≠ .refused r

/-- While BUSY = 1 the host may read STATUS and INFO, and every other supported access is refused
(the access rule of 70_reset_and_hazards.md R253). That this takes in reserved offsets is log entry 12. -/
def Obligations.BusyBlockRefusesOtherAccesses : Prop :=
  ∀ (s : State) (rest : List Event) (a : Access), s.events = .access a :: rest → s.latched ≠ none →
    (a = .read .word 0x204 → step s = .next { s with events := rest, readout := some s.statusWord }) ∧
    (a = .read .word 0x208 → step s = .next { s with events := rest, readout := some (infoWord s.cfg) }) ∧
    (a.supported = true → a ≠ .read .word 0x204 → a ≠ .read .word 0x208 → step s = .refused (.busyHazard a))

/-- The side effects of the host accesses that an idle block supports (20_memory.md R57). -/
def Obligations.HostAccessesHaveTheirSideEffectsOnly : Prop :=
  ∀ (s : State) (rest : List Event) (width : Width) (off : Offset), s.latched = none →
    ((width = .byte ∧ (off.toNat < 0x200 ∨ 0x20C ≤ off.toNat)) ∨ (width = .word ∧ off.toNat % 4 = 0)) →
    (s.events = .access (.read width off) :: rest →
      (∃ v, step s = .next { s with events := rest, readout := some v }) ∨
        (off.toNat < 0x200 ∧ ∃ f, step s = .fault f)) ∧
    (∀ v, s.events = .access (.write width off v) :: rest →
      (off.toNat = 0x200 → step s = State.runCommand { s with events := rest } v) ∧
      (0x200 < off.toNat → step s = .next { s with events := rest }) ∧
      (off.toNat < 0x200 → ∃ t, step s = .next t ∧ t = { s with events := rest, wm := t.wm } ∧
        ∀ b, (b < off.toNat ∨ off.toNat + width.bytes ≤ b) → t.wm.read b = s.wm.read b)) ∧
    (∀ t, s.events = .access (.read width off) :: rest → step s = .next t →
      step { t with events := s.events } = .next t)

/-- A 32-bit access to WM moves the four bytes least significant first; an 8-bit access moves one
(20_memory.md R52). That an 8-bit access carries its byte in the low bits is the model's choice, log entry 14. -/
def Obligations.WordAccessesToWmAreLittleEndian : Prop :=
  ∀ (s : State) (rest : List Event) (off : Offset) (v : Word), s.latched = none → off.toNat < 0x200 →
    (s.events = .access (.write .word off v) :: rest → off.toNat % 4 = 0 →
      ∃ t, step s = .next t ∧
        t.wm.readBytes off.toNat 4 = some [v.extractLsb' 0 8, v.extractLsb' 8 8, v.extractLsb' 16 8, v.extractLsb' 24 8]) ∧
    (∀ b0 b1 b2 b3 : Byte, s.events = .access (.read .word off) :: rest → off.toNat % 4 = 0 →
      s.wm.readBytes off.toNat 4 = some [b0, b1, b2, b3] →
      step s = .next { s with events := rest, readout := some (b3 ++ b2 ++ b1 ++ b0) }) ∧
    (s.events = .access (.write .byte off v) :: rest →
      ∃ t, step s = .next t ∧ t.wm.read off.toNat = some (v.extractLsb' 0 8)) ∧
    (∀ b : Byte, s.events = .access (.read .byte off) :: rest → s.wm.read off.toNat = some b →
      step s = .next { s with events := rest, readout := some (b.setWidth 32) })

/-- A host read of a WM byte that nothing has written since reset faults (70_reset_and_hazards.md R251). -/
def Obligations.UnwrittenHostReadsFault : Prop :=
  ∀ (s : State) (rest : List Event) (off : Offset), s.latched = none → off.toNat < 0x200 →
    (s.events = .access (.read .byte off) :: rest → s.wm.read off.toNat = none →
      step s = .fault (.unwrittenRead off.toNat 1)) ∧
    (s.events = .access (.read .word off) :: rest → off.toNat % 4 = 0 → s.wm.readBytes off.toNat 4 = none →
      step s = .fault (.unwrittenRead off.toNat 4))

/-- What a read of STATUS returns, bit by bit; a write to it has no effect (10_state.md R25). -/
def Obligations.StatusReadsItsFields : Prop :=
  (∀ (s : State) (rest : List Event), s.events = rd32 0x204 :: rest →
    ∃ w, step s = .next { s with events := rest, readout := some w } ∧
      w.getLsbD 0 = s.latched.isSome ∧ w.getLsbD 1 = s.result ∧ w.extractLsb' 2 2 = 0 ∧
      w.extractLsb' 4 4 = s.err ∧ (∀ k, k < 4 → w.getLsbD (8 + k) = s.keyv k) ∧ w.extractLsb' 12 20 = 0) ∧
  (∀ (s : State) (rest : List Event) (v : Word), s.latched = none → s.events = wr32 0x204 v :: rest →
    step s = .next { s with events := rest }) ∧
  (∀ cfg, (State.resetOf cfg).statusWord = 0)

/-- What a read of INFO returns (10_state.md R32). -/
def Obligations.InfoReadsTheParameters : Prop :=
  (∀ (s : State) (rest : List Event), s.events = rd32 0x208 :: rest →
    ∃ w, step s = .next { s with events := rest, readout := some w } ∧
      w.extractLsb' 0 8 = 0x01#8 ∧ (w.extractLsb' 8 3).toNat = s.cfg.numSlots ∧ w.getLsbD 11 = false ∧
      w.getLsbD 12 = s.cfg.componentCmds ∧ (w.getLsbD 13 = true ↔ s.cfg.alphabet = .std) ∧
      w.extractLsb' 14 18 = 0) ∧
  (∀ (s : State) (rest : List Event) (v : Word), s.latched = none → s.events = wr32 0x208 v :: rest →
    step s = .next { s with events := rest }) ∧
  infoWord Config.default = 0x00001401 ∧
  (∀ s t, step s = .next t → t.cfg = s.cfg)

/-- CMD reads as 0 (10_state.md R24), and a reserved offset reads as 0 and ignores writes (R23). -/
def Obligations.ReservedOffsetsReadZero : Prop :=
  ∀ (s : State) (rest : List Event) (width : Width) (off : Offset) (v : Word), s.latched = none →
    (s.events = rd32 0x200 :: rest → step s = .next { s with events := rest, readout := some 0 }) ∧
    (0x20C ≤ off.toNat → (width = .byte ∨ (width = .word ∧ off.toNat % 4 = 0)) →
      (s.events = .access (.read width off) :: rest →
        step s = .next { s with events := rest, readout := some 0 }) ∧
      (s.events = .access (.write width off v) :: rest → step s = .next { s with events := rest }))

/-! ## Reset -/

/-- The values of 10_state.md R38. -/
def Obligations.ResetLeavesTheStatedValues : Prop :=
  ∀ cfg : Config,
    (State.resetOf cfg).busy = false ∧ (State.resetOf cfg).result = false ∧ (State.resetOf cfg).err = 0 ∧
    (∀ k, (State.resetOf cfg).keyv k = false) ∧ (∀ k, (State.resetOf cfg).slot k = ⟨false, RoundKeys.zero⟩) ∧
    (∀ a, cfg.wmReset = .unwritten → (State.resetOf cfg).wm.read a = none) ∧
    (∀ a, cfg.wmReset = .zero → a < 512 → (State.resetOf cfg).wm.read a = some 0) ∧
    (∀ off : Offset, off.toNat = 0x200 ∨ 0x20C ≤ off.toNat → (State.resetOf cfg).registerValue off = 0) ∧
    (State.resetOf cfg).registerValue 0x208 = infoWord cfg

/-- The reset event, whatever the block was doing, and the answers that come later to a request made before it: they are
ignored however long after, whether or not a new MINT is held (70_reset_and_hazards.md R250). That requests are numbered
is the model's choice, log entry 6. -/
def Obligations.ResetEventRestoresTheResetValues : Prop :=
  ∀ (s : State) (rest : List Event),
    (s.events = .reset :: rest →
      ∃ t, step s = .next t ∧ t.cfg = s.cfg ∧ t.busy = false ∧ t.latched = none ∧ t.result = false ∧ t.err = 0 ∧
        (∀ k, t.keyv k = false) ∧ (∀ k, t.slot k = ⟨false, RoundKeys.zero⟩) ∧
        (s.cfg.wmReset = .unwritten → ∀ a, t.wm.read a = none) ∧
        (s.cfg.wmReset = .zero → ∀ a, a < 512 → t.wm.read a = some 0) ∧
        (s.cfg.wmReset = .keep → t.wm = s.wm)) ∧
    (∀ (t u : State) (k n : Nat) (a : EntropyAnswer) (rest' : List Event), s.events = .reset :: rest →
      step s = .next t → runSteps k t = .next u → u.events = .entropyAnswer n a :: rest' → n ≤ s.request →
      step u = .next { u with events := rest' })

/-- The invariant holds right after reset, for every choice of the build parameters. -/
def Obligations.ResetSatisfiesTheInvariant : Prop := ∀ cfg : Config, (State.resetOf cfg).Inv

/-! ## Every step -/

/-- Every step, from every state that meets the invariant, keeps it. -/
def Obligations.EveryStepKeepsTheInvariant : Prop :=
  ∀ s t : State, s.Inv → step s = .next t → t.Inv

/-- A key slot changes only by reset or by an EXPAND or CLEAR that names it (40_key_schedule.md R107). -/
def Obligations.SlotsChangeByExpandClearOrResetOnly : Prop :=
  ∀ (s t : State) (k : Nat), s.Inv → step s = .next t → t.slot k ≠ s.slot k →
    (∃ rest, s.events = .reset :: rest) ∨
    (∃ w rest, s.latched = none ∧ s.events = wr32 0x200 w :: rest ∧
      (decode s.cfg w = .instr (.expand k) ∨ decode s.cfg w = .instr (.clear k)))

/-- Round keys are hidden: two states that differ in round keys alone still do so after any step that does not run
ENCRYPT, MINT or VALIDATE, and every value the host can read stays equal (10_state.md R34). -/
def Obligations.RoundKeysAreHidden : Prop :=
  ∀ s s' : State, SameButRoundKeys s s' → s.latched = none →
    (∀ w rest i, s.events = wr32 0x200 w :: rest → decode s.cfg w = .instr i → usesRoundKeys i = false) →
    s'.statusWord = s.statusWord ∧ SameOutcomeButRoundKeys (step s) (step s')
end

