-- ==== Sys2Proof/Laws/Codec.lean ====
section
/-! SUPPORT. Laws of the codec, of byte strings and of blocks: lengths, and the maps of single characters. -/

namespace Sys2Proof.Machine

/-! ## Lengths -/

@[simp] theorem length_groupChars (al : B64Alphabet) (v : BitVec 24) : (groupChars al v).length = 4 := rfl

@[simp] theorem length_groupBytes (v : BitVec 24) : (groupBytes v).length = 3 := rfl

theorem length_b64Enc (al : B64Alphabet) : ∀ x : List Byte, (b64Enc al x).length = 4 * (x.length / 3)
  | x0 :: x1 :: x2 :: rest => by
    simp only [b64Enc, List.length_append, length_groupChars, List.length_cons, length_b64Enc al rest]
    omega
  | [] => rfl
  | [_] => by simp [b64Enc]
  | [_, _] => by simp [b64Enc]

theorem length_b64Dec (al : B64Alphabet) : ∀ c : List Byte, (b64Dec al c).length = 3 * (c.length / 4)
  | c0 :: c1 :: c2 :: c3 :: rest => by
    simp only [b64Dec, List.length_append, length_groupBytes, List.length_cons, length_b64Dec al rest]
    omega
  | [] => rfl
  | [_] => by simp [b64Dec]
  | [_, _] => by simp [b64Dec]
  | [_, _, _] => by simp [b64Dec]

@[simp] theorem length_hexEnc : ∀ x : List Byte, (hexEnc x).length = 2 * x.length
  | [] => rfl
  | _ :: rest => by simp only [hexEnc, List.length_cons, length_hexEnc rest]; omega

@[simp] theorem length_hexDecT : ∀ c : List Byte, (hexDecT c).length = c.length / 2
  | c0 :: c1 :: rest => by simp only [hexDecT, List.length_cons, length_hexDecT rest]; omega
  | [] => rfl
  | [_] => by simp [hexDecT]

theorem hexDecS_eq_some {c y : List Byte} : hexDecS c = some y ↔ c.all isHexDigit = true ∧ y = hexDecT c := by
  by_cases h : c.all isHexDigit = true
  · rw [hexDecS, if_pos h, Option.some_inj]
    exact ⟨fun e => ⟨h, e.symm⟩, fun e => e.2.symm⟩
  · rw [hexDecS, if_neg h]
    exact ⟨fun e => (nomatch e), fun e => (h e.1).elim⟩

@[simp] theorem length_slice (x : List Byte) (a b : Nat) : (slice x a b).length = min (b - a) (x.length - a) := by
  simp [slice]

@[simp] theorem Block.length_toBytes (b : Block) : b.toBytes.length = 16 := rfl

@[simp] theorem length_cipherBytes (rk : RoundKeys) (p : List Byte) : (cipherBytes rk p).length = 16 := rfl

/-- A block is read back from its own 16 bytes. -/
@[simp] theorem Block.ofBytes_toBytes (b : Block) : Block.ofBytes b.toBytes = b := rfl

theorem length_template : template.length = 179 := by decide +kernel

theorem length_overwrite {t field : List Byte} {start : Nat} (h : start + field.length ≤ t.length) :
    (overwrite t start field).length = t.length := by
  simp only [overwrite, List.length_append, List.length_take, List.length_drop]
  omega

/-- EncF of 8 bytes is a 24-character field. -/
theorem length_encF (al : B64Alphabet) {x : List Byte} (h : x.length = 8) : (encF al x).length = 24 := by
  simp [encF, length_b64Enc, h]

/-- EncT of a 16-byte tag is the 44-character field. -/
theorem length_encT (al : B64Alphabet) {x : List Byte} (h : x.length = 16) : (encT al x).length = 44 := by
  simp [encT, length_b64Enc, h]

/-- Every token image of fields of the right sizes has TOKEN_LEN bytes. -/
theorem length_tokenImage (al : B64Alphabet) {id8 cn8 tag : List Byte} (h1 : id8.length = 8) (h2 : cn8.length = 8)
    (h3 : tag.length = 16) : (tokenImage al id8 cn8 tag).length = 179 := by
  have e1 := length_encF al h1
  have e2 := length_encF al h2
  have e3 := length_encT al h3
  have l1 : (overwrite template subStart (encF al id8)).length = 179 := by
    rw [length_overwrite (by rw [e1, length_template]; decide), length_template]
  have l2 : (overwrite (overwrite template subStart (encF al id8)) jtiStart (encF al cn8)).length = 179 := by
    rw [length_overwrite (by rw [e2, l1]; decide), l1]
  rw [tokenImage, length_overwrite (by rw [e3, l2]; decide), l2]

/-- The identifier's eight bytes. -/
theorem length_idExtract {ident id8 : List Byte} (hl : ident.length = 36) (h : idExtract ident = some id8) :
    id8.length = 8 := by
  obtain ⟨-, rfl⟩ := hexDecS_eq_some.1 h
  simp [hl]

/-! ## Single characters -/

/-- The alphabet of 42_codec.md R141 as the rule writes it. -/
theorem alphaChar_url : (List.range 64).map (fun i => alphaChar .url (BitVec.ofNat 6 i)) =
    ascii "ABCDEFGHIJKLMNOPQRSTUVWXYZabcdefghijklmnopqrstuvwxyz0123456789-_" := by decide +kernel

theorem alphaChar_std : (List.range 64).map (fun i => alphaChar .std (BitVec.ofNat 6 i)) =
    ascii "ABCDEFGHIJKLMNOPQRSTUVWXYZabcdefghijklmnopqrstuvwxyz0123456789+/" := by decide +kernel

/-- The digits of 42_codec.md R145 as the rule writes them. -/
theorem hexDigit_table : (List.range 16).map (fun i => hexDigit (BitVec.ofNat 4 i)) = ascii "0123456789abcdef" := by
  decide +kernel

/-- The decode map inverts the alphabet. -/
theorem sextet_alphaChar (al : B64Alphabet) (i : BitVec 6) : sextet al (alphaChar al i) = i := by
  cases al <;> revert i <;> decide +kernel

/-- The digit map is inverted by `nib`. -/
theorem nib_hexDigit (v : BitVec 4) : nib (hexDigit v) = v := by revert v; decide +kernel

theorem isHexDigit_hexDigit (v : BitVec 4) : isHexDigit (hexDigit v) = true := by revert v; decide +kernel

end Sys2Proof.Machine
end

