-- ==== Sys2Proof/Laws/Decode.lean ====
section
/-! SUPPORT. The command word as a number, its fields, and what the decoder accepts, said once. -/

namespace Sys2Proof

theorem wordField_eq (w : Word) (lo len : Nat) : wordField w lo len = w.toNat / 2 ^ lo % 2 ^ len := by
  simp [wordField, Nat.shiftRight_eq_div_pow]

/-- The fields of a word are the digits of its number (30_encoding.md R80, R81). -/
theorem word_fields (w : Word) :
    w.toNat = fieldOp w + fieldSlot w * 2 ^ 4 + fieldS w * 2 ^ 6 + fieldRsv w * 2 ^ 7 + fieldSrc w * 2 ^ 8 +
      fieldDst w * 2 ^ 17 + fieldN w * 2 ^ 26 ∧
    fieldOp w < 16 ∧ fieldSlot w < 4 ∧ fieldS w < 2 ∧ fieldRsv w < 2 ∧ fieldSrc w < 512 ∧ fieldDst w < 512 ∧
      fieldN w < 64 := by
  have := w.isLt
  simp only [fieldOp, fieldSlot, fieldS, fieldRsv, fieldSrc, fieldDst, fieldN, wordField_eq]
  omega

theorem shiftLeft_or_of_lt (x y k : Nat) (h : y < 2 ^ k) : x <<< k ||| y = x * 2 ^ k + y := by
  rw [← Nat.shiftLeft_add_eq_or_of_lt h, Nat.shiftLeft_eq]

/-- A packed word is the sum of its fields at their places (30_encoding.md R80). -/
theorem packWord_toNat {op slot strict src dst n : Nat} (h1 : op < 16) (h2 : slot < 4) (h3 : strict < 2)
    (h4 : src < 512) (h5 : dst < 512) (h6 : n < 64) : (packWord op slot strict src dst n).toNat =
      op + slot * 2 ^ 4 + strict * 2 ^ 6 + src * 2 ^ 8 + dst * 2 ^ 17 + n * 2 ^ 26 := by
  unfold packWord
  simp only [BitVec.toNat_append, BitVec.toNat_ofNat]
  rw [Nat.mod_eq_of_lt (a := op) (by omega), Nat.mod_eq_of_lt (a := slot) (by omega),
    Nat.mod_eq_of_lt (a := strict) (by omega), Nat.mod_eq_of_lt (a := src) (by omega),
    Nat.mod_eq_of_lt (a := dst) (by omega), Nat.mod_eq_of_lt (a := n) (by omega)]
  rw [shiftLeft_or_of_lt _ _ 9 (by omega), shiftLeft_or_of_lt _ _ 9 (by omega), shiftLeft_or_of_lt _ _ 1 (by omega),
    shiftLeft_or_of_lt _ _ 1 (by omega), shiftLeft_or_of_lt _ _ 2 (by omega), shiftLeft_or_of_lt _ _ 4 (by omega)]
  omega

/-- The fields of a packed word. -/
theorem fields_packWord {op slot strict src dst n : Nat} (h1 : op < 16) (h2 : slot < 4) (h3 : strict < 2)
    (h4 : src < 512) (h5 : dst < 512) (h6 : n < 64) :
    fieldOp (packWord op slot strict src dst n) = op ∧ fieldSlot (packWord op slot strict src dst n) = slot ∧
    fieldS (packWord op slot strict src dst n) = strict ∧ fieldRsv (packWord op slot strict src dst n) = 0 ∧
    fieldSrc (packWord op slot strict src dst n) = src ∧ fieldDst (packWord op slot strict src dst n) = dst ∧
    fieldN (packWord op slot strict src dst n) = n := by
  have := packWord_toNat h1 h2 h3 h4 h5 h6
  simp only [fieldOp, fieldSlot, fieldS, fieldRsv, fieldSrc, fieldDst, fieldN, wordField_eq, this]
  omega

/-- Everything the decoder accepts (30_encoding.md R87). -/
theorem decode_eq_instr (cfg : Config) (w : Word) (i : Instr) : decode cfg w = .instr i ↔ fieldRsv w = 0 ∧
    ((fieldOp w = 1 ∧ fieldS w = 0 ∧ fieldSrc w = 0 ∧ fieldDst w = 0 ∧ fieldN w = 0 ∧ i = .expand (fieldSlot w)) ∨
    (fieldOp w = 2 ∧ fieldS w = 0 ∧ fieldSrc w = 0 ∧ fieldDst w = 0 ∧ fieldN w = 0 ∧ i = .clear (fieldSlot w)) ∨
    (fieldOp w = 3 ∧ cfg.componentCmds = true ∧ fieldS w = 0 ∧ fieldN w = 0 ∧
      i = .encrypt (fieldSlot w) (fieldSrc w) (fieldDst w)) ∨
    (fieldOp w = 4 ∧ cfg.componentCmds = true ∧ fieldSlot w = 0 ∧ fieldS w = 0 ∧
      i = .b64enc (fieldSrc w) (fieldDst w) (fieldN w)) ∨
    (fieldOp w = 5 ∧ cfg.componentCmds = true ∧ fieldSlot w = 0 ∧ fieldS w = 0 ∧
      i = .b64dec (fieldSrc w) (fieldDst w) (fieldN w)) ∨
    (fieldOp w = 6 ∧ cfg.componentCmds = true ∧ fieldSlot w = 0 ∧ fieldS w = 0 ∧
      i = .hexenc (fieldSrc w) (fieldDst w) (fieldN w)) ∨
    (fieldOp w = 7 ∧ cfg.componentCmds = true ∧ fieldSlot w = 0 ∧
      i = .hexdec (fieldS w == 1) (fieldSrc w) (fieldDst w) (fieldN w)) ∨
    (fieldOp w = 8 ∧ fieldS w = 0 ∧ fieldSrc w = 0 ∧ fieldDst w = 0 ∧ fieldN w = 0 ∧ i = .mint (fieldSlot w)) ∨
    (fieldOp w = 9 ∧ fieldS w = 0 ∧ fieldSrc w = 0 ∧ fieldDst w = 0 ∧ fieldN w = 0 ∧ i = .validate (fieldSlot w))) := by
  unfold decode decodeComponentIf decodeIf
  by_cases hr : fieldRsv w = 0
  · simp only [hr, bne_self_eq_false, Bool.false_eq_true, if_false, true_and]
    have := (word_fields w).2.1
    generalize fieldOp w = op at *
    interval_cases op <;> grind
  · simp [hr]

/-- The mask and the match bits of one row as fields: a row selects a word when the fields that must be constant
are. -/
theorem OpcodeRow.selects_iff (r : OpcodeRow) (w : Word) : r.selects w = true ↔ w &&& r.mask = r.bits := by
  simp [OpcodeRow.selects]

end Sys2Proof
end

