-- ==== Sys2Proof/Laws/Memory.lean ====
section
/-! SUPPORT. Laws of work memory: a read after a write, the canonical form, and the reset contents. -/

namespace Sys2Proof.Machine

/-! ## One byte -/

theorem readCells_writeCells (a b : Nat) (v : Byte) (cells : List Host.Cell) :
    readCells b (writeCells a v cells) = if b = a then some v else readCells b cells := by
  induction cells with
  | nil =>
    by_cases h : b = a
    · simp [writeCells, readCells, h]
    · simp [writeCells, readCells, h, Ne.symm h]
  | cons c rest ih =>
    obtain ⟨x, w⟩ := c
    simp only [writeCells]
    split
    · by_cases h : b = a
      · simp [readCells, h]
      · simp [readCells, h, Ne.symm h]
    · split
      · rename_i h; subst h
        by_cases h : b = a
        · simp [readCells, h]
        · simp [readCells, h, Ne.symm h]
      · simp only [readCells, ih]
        split
        · rename_i h1 h2 h3
          rw [if_neg (by omega)]
        · rfl

theorem Memory.read_write (m : Memory) (a b : Nat) (v : Byte) :
    (m.write a v).read b = if b = a then some v else m.read b :=
  readCells_writeCells a b v m.cells

@[simp] theorem Memory.read_write_same (m : Memory) (a : Nat) (v : Byte) : (m.write a v).read a = some v := by
  simp [Memory.read_write]

theorem Memory.read_write_of_ne (m : Memory) {a b : Nat} (v : Byte) (h : b ≠ a) :
    (m.write a v).read b = m.read b := by
  simp [Memory.read_write, h]

/-! ## Byte strings -/

theorem Memory.readBytes_succ (m : Memory) (a n : Nat) (vs : List Byte) :
    m.readBytes a (n + 1) = some vs ↔ ∃ v rest, vs = v :: rest ∧ m.read a = some v ∧ m.readBytes (a + 1) n = some rest := by
  simp only [Memory.readBytes]
  split
  · rename_i v rest hv hr
    constructor
    · intro h
      cases h
      exact ⟨v, rest, rfl, hv, hr⟩
    · rintro ⟨v', rest', rfl, hv', hr'⟩
      simp_all
  · rename_i h
    constructor
    · intro h'; cases h'
    · rintro ⟨v, rest, -, hv, hr⟩
      exact (h v rest hv hr).elim

theorem Memory.length_readBytes {m : Memory} {n : Nat} : ∀ {a : Nat} {vs : List Byte},
    m.readBytes a n = some vs → vs.length = n := by
  induction n with
  | zero => intro a vs h; simp [Memory.readBytes] at h; simp [← h]
  | succ n ih =>
    intro a vs h
    obtain ⟨v, rest, rfl, -, hr⟩ := (m.readBytes_succ a n vs).1 h
    simp [ih hr]

/-- Two memories that agree on a window give the same bytes. -/
theorem Memory.readBytes_congr {m m' : Memory} {n : Nat} : ∀ {a : Nat},
    (∀ b, a ≤ b → b < a + n → m.read b = m'.read b) → m.readBytes a n = m'.readBytes a n := by
  induction n with
  | zero => intro a _; rfl
  | succ n ih =>
    intro a h
    simp only [Memory.readBytes]
    rw [h a (by omega) (by omega), ih fun b h1 h2 => h b (by omega) (by omega)]

/-- A byte outside the written window keeps its value. -/
theorem Memory.read_writeBytes_of_outside {vs : List Byte} : ∀ {m : Memory} {a b : Nat},
    (b < a ∨ a + vs.length ≤ b) → (m.writeBytes a vs).read b = m.read b := by
  induction vs with
  | nil => intros; rfl
  | cons v vs ih =>
    intro m a b h
    simp only [List.length_cons] at h
    simp only [Memory.writeBytes]
    rw [ih (by omega), Memory.read_write_of_ne _ _ (by omega)]

/-- A written byte reads back. -/
theorem Memory.read_writeBytes_inside {vs : List Byte} : ∀ {m : Memory} {a i : Nat},
    i < vs.length → (m.writeBytes a vs).read (a + i) = vs[i]? := by
  induction vs with
  | nil => intro m a i h; simp at h
  | cons v vs ih =>
    intro m a i h
    simp only [Memory.writeBytes]
    cases i with
    | zero => rw [Memory.read_writeBytes_of_outside (by omega)]; simp
    | succ i =>
      have := ih (m := m.write a v) (a := a + 1) (i := i) (by simpa using h)
      rw [show a + (i + 1) = a + 1 + i by omega, this]
      simp

/-- What was written at a window is what the window reads. -/
theorem Memory.readBytes_writeBytes (vs : List Byte) : ∀ (m : Memory) (a : Nat),
    (m.writeBytes a vs).readBytes a vs.length = some vs := by
  induction vs with
  | nil => intros; rfl
  | cons v vs ih =>
    intro m a
    rw [List.length_cons, Memory.readBytes_succ]
    refine ⟨v, vs, rfl, ?_, ih _ _⟩
    simp only [Memory.writeBytes]
    rw [Memory.read_writeBytes_of_outside (by omega)]
    simp

/-- A window that no written byte falls into reads as before. -/
theorem Memory.readBytes_writeBytes_disjoint {m : Memory} {a b n : Nat} {vs : List Byte}
    (h : b + n ≤ a ∨ a + vs.length ≤ b) : (m.writeBytes a vs).readBytes b n = m.readBytes b n :=
  Memory.readBytes_congr fun c h1 h2 => Memory.read_writeBytes_of_outside (by omega)

/-! ## The canonical form -/

theorem cellsWf_mono {lo lo' : Nat} (h : lo' ≤ lo) : ∀ {cells}, cellsWf lo cells = true → cellsWf lo' cells = true
  | [], _ => rfl
  | (a, v) :: rest, hw => by
    simp only [cellsWf, Bool.and_eq_true, decide_eq_true_eq] at hw ⊢
    exact ⟨⟨by omega, hw.1.2⟩, hw.2⟩

theorem cellsWf_writeCells {a : Nat} {v : Byte} (ha : a < wmBytes) {cells : List Host.Cell} : ∀ {lo : Nat},
    lo ≤ a → cellsWf lo cells = true → cellsWf lo (writeCells a v cells) = true := by
  induction cells with
  | nil => intro lo h _; simp [writeCells, cellsWf, h, ha]
  | cons c rest ih =>
    obtain ⟨b, w⟩ := c
    intro lo h hw
    simp only [cellsWf, Bool.and_eq_true, decide_eq_true_eq] at hw
    simp only [writeCells]
    split
    · simp only [cellsWf, Bool.and_eq_true, decide_eq_true_eq]
      exact ⟨⟨h, ha⟩, ⟨by omega, hw.1.2⟩, hw.2⟩
    · split
      · rename_i h2; subst h2
        simp only [cellsWf, Bool.and_eq_true, decide_eq_true_eq]
        exact ⟨⟨h, ha⟩, hw.2⟩
      · simp only [cellsWf, Bool.and_eq_true, decide_eq_true_eq]
        exact ⟨hw.1, ih (by omega) hw.2⟩

/-- A write inside WM keeps the canonical form. -/
theorem Memory.wf_write {m : Memory} {a : Nat} (v : Byte) (ha : a < wmBytes) (h : m.wf = true) :
    (m.write a v).wf = true :=
  cellsWf_writeCells ha (Nat.zero_le a) h

/-- A byte string written inside WM keeps the canonical form. -/
theorem Memory.wf_writeBytes {vs : List Byte} : ∀ {m : Memory} {a : Nat},
    a + vs.length ≤ wmBytes → m.wf = true → (m.writeBytes a vs).wf = true := by
  induction vs with
  | nil => intro m a _ h; exact h
  | cons v vs ih =>
    intro m a ha h
    simp only [List.length_cons] at ha
    exact ih (by omega) (Memory.wf_write v (by omega) h)

@[simp] theorem Memory.wf_empty : Memory.empty.wf = true := rfl

theorem Memory.wf_powerOn (r : WmReset) : (Memory.powerOn r).wf = true := by
  cases r <;> decide +kernel

/-- The reset event keeps the canonical form. -/
theorem Memory.wf_afterReset {m : Memory} (r : WmReset) (h : m.wf = true) : (m.afterReset r).wf = true := by
  cases r
  · rfl
  · exact Memory.wf_powerOn .zero
  · exact h

/-- The memory of State.reset has the canonical form. -/
theorem wf_reset : State.reset.wm.wf = true := rfl

end Sys2Proof.Machine
end

