-- ==== Sys2Proof/Laws/State.lean ====
section
/-! SUPPORT. What each update of the state does to each field, so that no proof unfolds a record update. -/

namespace Sys2Proof.Machine

variable (s : State)

/-! ### finish -/

@[simp] theorem cfg_finish (e : ErrCode) (r : Bool) : (s.finish e r).cfg = s.cfg := rfl
@[simp] theorem wm_finish (e : ErrCode) (r : Bool) : (s.finish e r).wm = s.wm := rfl
@[simp] theorem slots_finish (e : ErrCode) (r : Bool) : (s.finish e r).slots = s.slots := rfl
@[simp] theorem result_finish (e : ErrCode) (r : Bool) : (s.finish e r).result = r := rfl
@[simp] theorem err_finish (e : ErrCode) (r : Bool) : (s.finish e r).err = e.code := rfl
@[simp] theorem latched_finish (e : ErrCode) (r : Bool) : (s.finish e r).latched = none := rfl
@[simp] theorem entropy_finish (e : ErrCode) (r : Bool) : (s.finish e r).entropy = s.entropy := rfl
@[simp] theorem request_finish (e : ErrCode) (r : Bool) : (s.finish e r).request = s.request := rfl
@[simp] theorem events_finish (e : ErrCode) (r : Bool) : (s.finish e r).events = s.events := rfl
@[simp] theorem readout_finish (e : ErrCode) (r : Bool) : (s.finish e r).readout = s.readout := rfl

/-! ### hold -/

@[simp] theorem cfg_hold (i : Instr) : (s.hold i).cfg = s.cfg := rfl
@[simp] theorem wm_hold (i : Instr) : (s.hold i).wm = s.wm := rfl
@[simp] theorem slots_hold (i : Instr) : (s.hold i).slots = s.slots := rfl
@[simp] theorem result_hold (i : Instr) : (s.hold i).result = false := rfl
@[simp] theorem err_hold (i : Instr) : (s.hold i).err = s.err := rfl
@[simp] theorem latched_hold (i : Instr) : (s.hold i).latched = some i := rfl
@[simp] theorem entropy_hold (i : Instr) : (s.hold i).entropy = s.entropy := rfl
@[simp] theorem request_hold (i : Instr) : (s.hold i).request = s.request := rfl
@[simp] theorem events_hold (i : Instr) : (s.hold i).events = s.events := rfl
@[simp] theorem readout_hold (i : Instr) : (s.hold i).readout = s.readout := rfl

/-! ### writeWm -/

@[simp] theorem cfg_writeWm (a : Nat) (vs : List Byte) : (s.writeWm a vs).cfg = s.cfg := rfl
@[simp] theorem wm_writeWm (a : Nat) (vs : List Byte) : (s.writeWm a vs).wm = s.wm.writeBytes a vs := rfl
@[simp] theorem slots_writeWm (a : Nat) (vs : List Byte) : (s.writeWm a vs).slots = s.slots := rfl
@[simp] theorem result_writeWm (a : Nat) (vs : List Byte) : (s.writeWm a vs).result = s.result := rfl
@[simp] theorem err_writeWm (a : Nat) (vs : List Byte) : (s.writeWm a vs).err = s.err := rfl
@[simp] theorem latched_writeWm (a : Nat) (vs : List Byte) : (s.writeWm a vs).latched = s.latched := rfl
@[simp] theorem entropy_writeWm (a : Nat) (vs : List Byte) : (s.writeWm a vs).entropy = s.entropy := rfl
@[simp] theorem request_writeWm (a : Nat) (vs : List Byte) : (s.writeWm a vs).request = s.request := rfl
@[simp] theorem events_writeWm (a : Nat) (vs : List Byte) : (s.writeWm a vs).events = s.events := rfl
@[simp] theorem readout_writeWm (a : Nat) (vs : List Byte) : (s.writeWm a vs).readout = s.readout := rfl

/-! ### setSlot -/

@[simp] theorem cfg_setSlot (k : Nat) (x : KeySlot) : (s.setSlot k x).cfg = s.cfg := rfl
@[simp] theorem wm_setSlot (k : Nat) (x : KeySlot) : (s.setSlot k x).wm = s.wm := rfl
@[simp] theorem slots_setSlot (k : Nat) (x : KeySlot) : (s.setSlot k x).slots = s.slots.setIfInBounds k x := rfl
@[simp] theorem result_setSlot (k : Nat) (x : KeySlot) : (s.setSlot k x).result = s.result := rfl
@[simp] theorem err_setSlot (k : Nat) (x : KeySlot) : (s.setSlot k x).err = s.err := rfl
@[simp] theorem latched_setSlot (k : Nat) (x : KeySlot) : (s.setSlot k x).latched = s.latched := rfl
@[simp] theorem entropy_setSlot (k : Nat) (x : KeySlot) : (s.setSlot k x).entropy = s.entropy := rfl
@[simp] theorem request_setSlot (k : Nat) (x : KeySlot) : (s.setSlot k x).request = s.request := rfl
@[simp] theorem events_setSlot (k : Nat) (x : KeySlot) : (s.setSlot k x).events = s.events := rfl
@[simp] theorem readout_setSlot (k : Nat) (x : KeySlot) : (s.setSlot k x).readout = s.readout := rfl

/-! ### deliver -/

@[simp] theorem cfg_deliver (v : Word) : (s.deliver v).cfg = s.cfg := rfl
@[simp] theorem wm_deliver (v : Word) : (s.deliver v).wm = s.wm := rfl
@[simp] theorem slots_deliver (v : Word) : (s.deliver v).slots = s.slots := rfl
@[simp] theorem result_deliver (v : Word) : (s.deliver v).result = s.result := rfl
@[simp] theorem err_deliver (v : Word) : (s.deliver v).err = s.err := rfl
@[simp] theorem latched_deliver (v : Word) : (s.deliver v).latched = s.latched := rfl
@[simp] theorem entropy_deliver (v : Word) : (s.deliver v).entropy = s.entropy := rfl
@[simp] theorem request_deliver (v : Word) : (s.deliver v).request = s.request := rfl
@[simp] theorem events_deliver (v : Word) : (s.deliver v).events = s.events := rfl
@[simp] theorem readout_deliver (v : Word) : (s.deliver v).readout = some v := rfl

/-! ### applyReset -/

@[simp] theorem cfg_applyReset : (s.applyReset).cfg = s.cfg := rfl
@[simp] theorem wm_applyReset : (s.applyReset).wm = s.wm.afterReset s.cfg.wmReset := rfl
@[simp] theorem slots_applyReset : (s.applyReset).slots = KeySlots.empty := rfl
@[simp] theorem result_applyReset : (s.applyReset).result = false := rfl
@[simp] theorem err_applyReset : (s.applyReset).err = 0 := rfl
@[simp] theorem latched_applyReset : (s.applyReset).latched = none := rfl
@[simp] theorem entropy_applyReset : (s.applyReset).entropy = s.entropy := rfl
@[simp] theorem request_applyReset : (s.applyReset).request = s.request + 1 := rfl
@[simp] theorem events_applyReset : (s.applyReset).events = s.events := rfl
@[simp] theorem readout_applyReset : (s.applyReset).readout = s.readout := rfl

/-! ### requestAnswered -/

@[simp] theorem cfg_requestAnswered (rest : List EntropyAnswer) : (s.requestAnswered rest).cfg = s.cfg := rfl
@[simp] theorem wm_requestAnswered (rest : List EntropyAnswer) : (s.requestAnswered rest).wm = s.wm := rfl
@[simp] theorem slots_requestAnswered (rest : List EntropyAnswer) : (s.requestAnswered rest).slots = s.slots := rfl
@[simp] theorem result_requestAnswered (rest : List EntropyAnswer) : (s.requestAnswered rest).result = s.result := rfl
@[simp] theorem err_requestAnswered (rest : List EntropyAnswer) : (s.requestAnswered rest).err = s.err := rfl
@[simp] theorem latched_requestAnswered (rest : List EntropyAnswer) :
    (s.requestAnswered rest).latched = s.latched := rfl
@[simp] theorem entropy_requestAnswered (rest : List EntropyAnswer) : (s.requestAnswered rest).entropy = rest := rfl
@[simp] theorem request_requestAnswered (rest : List EntropyAnswer) :
    (s.requestAnswered rest).request = s.request + 1 := rfl
@[simp] theorem events_requestAnswered (rest : List EntropyAnswer) : (s.requestAnswered rest).events = s.events := rfl
@[simp] theorem readout_requestAnswered (rest : List EntropyAnswer) :
    (s.requestAnswered rest).readout = s.readout := rfl

/-! ### withCommand -/

@[simp] theorem cfg_withCommand (w : Word) : (s.withCommand w).cfg = s.cfg := rfl
@[simp] theorem wm_withCommand (w : Word) : (s.withCommand w).wm = s.wm := rfl
@[simp] theorem slots_withCommand (w : Word) : (s.withCommand w).slots = s.slots := rfl
@[simp] theorem result_withCommand (w : Word) : (s.withCommand w).result = s.result := rfl
@[simp] theorem err_withCommand (w : Word) : (s.withCommand w).err = s.err := rfl
@[simp] theorem latched_withCommand (w : Word) : (s.withCommand w).latched = none := rfl
@[simp] theorem entropy_withCommand (w : Word) : (s.withCommand w).entropy = s.entropy := rfl
@[simp] theorem request_withCommand (w : Word) : (s.withCommand w).request = s.request := rfl
@[simp] theorem events_withCommand (w : Word) : (s.withCommand w).events = wr32 cmdOffset w :: s.events := rfl
@[simp] theorem readout_withCommand (w : Word) : (s.withCommand w).readout = s.readout := rfl

/-! ### Slots and flags seen through an update -/

@[simp] theorem slot_finish (e : ErrCode) (r : Bool) (k : Nat) : (s.finish e r).slot k = s.slot k := rfl
@[simp] theorem slot_hold (i : Instr) (k : Nat) : (s.hold i).slot k = s.slot k := rfl
@[simp] theorem slot_writeWm (a : Nat) (vs : List Byte) (k : Nat) : (s.writeWm a vs).slot k = s.slot k := rfl
@[simp] theorem slot_requestAnswered (rest : List EntropyAnswer) (k : Nat) :
    (s.requestAnswered rest).slot k = s.slot k := rfl
@[simp] theorem slot_deliver (v : Word) (k : Nat) : (s.deliver v).slot k = s.slot k := rfl
@[simp] theorem slot_withCommand (w : Word) (k : Nat) : (s.withCommand w).slot k = s.slot k := rfl
@[simp] theorem keyv_finish (e : ErrCode) (r : Bool) (k : Nat) : (s.finish e r).keyv k = s.keyv k := rfl
@[simp] theorem keyv_hold (i : Instr) (k : Nat) : (s.hold i).keyv k = s.keyv k := rfl
@[simp] theorem keyv_writeWm (a : Nat) (vs : List Byte) (k : Nat) : (s.writeWm a vs).keyv k = s.keyv k := rfl
@[simp] theorem keyv_requestAnswered (rest : List EntropyAnswer) (k : Nat) :
    (s.requestAnswered rest).keyv k = s.keyv k := rfl
@[simp] theorem keyv_deliver (v : Word) (k : Nat) : (s.deliver v).keyv k = s.keyv k := rfl
@[simp] theorem keyv_withCommand (w : Word) (k : Nat) : (s.withCommand w).keyv k = s.keyv k := rfl

/-- A record update that leaves the slots alone leaves every slot alone. -/
@[simp] theorem slot_of_same_slots (c : Config) (m : Memory) (r : Bool) (e : BitVec 4) (l : Option Instr)
    (en : List EntropyAnswer) (rq : Nat) (ev : List Event) (ro : Option Word) (k : Nat) :
    (State.mk c m s.slots r e l en rq ev ro).slot k = s.slot k := rfl

@[simp] theorem keyv_of_same_slots (m : Memory) (r : Bool) (e : BitVec 4) (l : Option Instr)
    (en : List EntropyAnswer) (rq : Nat) (ev : List Event) (ro : Option Word) (k : Nat) :
    (State.mk s.cfg m s.slots r e l en rq ev ro).keyv k = s.keyv k := rfl

theorem slot_lt {k : Nat} (h : k < 4) : s.slot k = s.slots[k] := by
  simp [State.slot, List.getD_eq_getElem?_getD, h]

theorem slot_ge {k : Nat} (h : 4 ≤ k) : s.slot k = .empty := by
  simp [State.slot, List.getD_eq_getElem?_getD, h]

/-- Writing a slot changes that slot alone. -/
theorem slot_setSlot (k j : Nat) (x : KeySlot) :
    (s.setSlot k x).slot j = if j = k ∧ k < 4 then x else s.slot j := by
  by_cases hj : j < 4
  · rw [slot_lt _ hj, slot_lt _ hj]
    by_cases h : j = k
    · subst h
      simp [State.setSlot, hj]
    · simp [State.setSlot, h, Ne.symm h]
  · rw [slot_ge _ (by omega), slot_ge _ (by omega), if_neg (by omega)]

@[simp] theorem slot_applyReset (k : Nat) : s.applyReset.slot k = .empty := by
  by_cases h : k < 4
  · rw [slot_lt _ h]
    interval_cases k <;> rfl
  · rw [slot_ge _ (by omega)]

theorem numSlots_le_four (c : Config) : c.numSlots ≤ 4 := by
  unfold Config.numSlots
  cases c.slotCount <;> decide

theorem numSlots_pos (c : Config) : 0 < c.numSlots := by
  unfold Config.numSlots
  cases c.slotCount <;> decide

/-- A command that ends leaves BUSY = 0, a held one leaves BUSY = 1. -/
@[simp] theorem busy_finish (e : ErrCode) (r : Bool) : (s.finish e r).busy = false := rfl

@[simp] theorem busy_hold (i : Instr) : (s.hold i).busy = true := rfl

/-- The verdict of VALIDATE as one update. -/
theorem verdict_eq (ok : Bool) : s.verdict ok = s.finish (if ok then .ok else .tagMismatch) ok := by
  cases ok <;> rfl

end Sys2Proof.Machine
end

