-- ==== Sys2Proof/Laws/Ops.lean ====
section
/-! SUPPORT. What each shared operation can do, said once: if it answers a next state, then one of these. -/

namespace Sys2Proof.Machine

variable {s t : State}

theorem raise_next {e : ErrCode} : s.raise e = .next t ↔ t = s.finish e false := by
  simp [State.raise, eq_comm]

theorem withBytes_next {a n : Nat} {go : List Byte → Result} :
    s.withBytes a n go = .next t ↔ ∃ vs, s.wm.readBytes a n = some vs ∧ go vs = .next t := by
  simp only [State.withBytes]
  split <;> simp_all

theorem withBytes_some {a n : Nat} {go : List Byte → Result} {vs : List Byte} (h : s.wm.readBytes a n = some vs) :
    s.withBytes a n go = go vs := by
  simp [State.withBytes, h]

theorem withBytes_none {a n : Nat} {go : List Byte → Result} (h : s.wm.readBytes a n = none) :
    s.withBytes a n go = .fault (.unwrittenRead a n) := by
  simp [State.withBytes, h]

theorem requireComponent_next {go : Result} : s.requireComponent go = .next t ↔
    (s.cfg.componentCmds = true ∧ go = .next t) ∨ (s.cfg.componentCmds = false ∧ t = s.finish .illegalCommand false) := by
  simp only [State.requireComponent]
  split <;> simp_all [raise_next]

theorem requireSlot_next {k : Nat} {go : Result} : s.requireSlot k go = .next t ↔
    (k < s.cfg.numSlots ∧ go = .next t) ∨ (s.cfg.numSlots ≤ k ∧ t = s.finish .badSlot false) := by
  simp only [State.requireSlot]
  split
  · simp_all only [true_and, iff_self_or, and_imp]; omega
  · simp_all [raise_next]

theorem requireWindows_next {src inLen dst outLen : Nat} {go : Result} :
    s.requireWindows src inLen dst outLen go = .next t ↔
      (src + inLen ≤ 512 ∧ dst + outLen ≤ 512 ∧ go = .next t) ∨
      ((512 < src + inLen ∨ 512 < dst + outLen) ∧ t = s.finish .rangeError false) := by
  have hw : wmBytes = 512 := rfl
  simp only [State.requireWindows]
  split
  · rename_i h
    rw [raise_next]
    constructor
    · exact fun ht => .inr ⟨h, ht⟩
    · rintro (⟨h1, h2, -⟩ | ⟨-, ht⟩)
      · omega
      · exact ht
  · rename_i h
    constructor
    · exact fun ht => .inl ⟨by omega, by omega, ht⟩
    · rintro (⟨-, -, ht⟩ | ⟨h', -⟩)
      · exact ht
      · omega

theorem requireKey_next {k : Nat} {go : RoundKeys → Result} : s.requireKey k go = .next t ↔
    ((s.slot k).valid = true ∧ go (s.slot k).rk = .next t) ∨
    ((s.slot k).valid = false ∧ t = s.finish .keyNotValid false) := by
  simp only [State.requireKey]
  split <;> simp_all [raise_next]

/-- Everything a codec operand form can do: RangeError, a stored conversion, or MalformedIdentifier. -/
theorem transform_next {src inLen dst outLen : Nat} {f : List Byte → Option (List Byte)} :
    s.transform src inLen dst outLen f = .next t ↔
      (src + inLen ≤ 512 ∧ dst + outLen ≤ 512 ∧ ∃ xs, s.wm.readBytes src inLen = some xs ∧
        ((∃ ys, f xs = some ys ∧ t = (s.writeWm dst ys).finish .ok false) ∨
          (f xs = none ∧ t = s.finish .malformedIdentifier false))) ∨
      ((512 < src + inLen ∨ 512 < dst + outLen) ∧ t = s.finish .rangeError false) := by
  simp only [State.transform, requireWindows_next, withBytes_next]
  apply or_congr_left
  apply and_congr_right; intro _
  apply and_congr_right; intro _
  apply exists_congr; intro xs
  apply and_congr_right; intro _
  cases f xs with
  | none => simp [raise_next]
  | some ys => simp [eq_comm]

/-- Everything an entropy request can do: hold the command, raise InsufficientRandomness, or go on with a nonce. -/
theorem requestEntropy_next {i : Instr} {go : State → List Byte → Result} :
    s.requestEntropy i go = .next t ↔
      (s.entropy = [] ∧ t = s.hold i) ∨
      (∃ rest, s.entropy = .wait :: rest ∧ t = State.hold { s with entropy := rest } i) ∨
      (∃ rest, s.entropy = .fail :: rest ∧ t = State.finish (s.requestAnswered rest) .insufficientRandomness false) ∨
      (∃ nonce rest, s.entropy = .bytes nonce :: rest ∧ go (s.requestAnswered rest) nonce.toBytes = .next t) := by
  unfold State.requestEntropy
  split <;> rename_i h
  · simp [h, @eq_comm _ t]
  · simp [h, @eq_comm _ t]
  · simp [h, raise_next]
  · simp [h]

/-! ## The checks pass -/

theorem requireComponent_pass {go : Result} (h : s.cfg.componentCmds = true) : s.requireComponent go = go := by
  simp [State.requireComponent, h]

theorem requireSlot_pass {k : Nat} {go : Result} (h : k < s.cfg.numSlots) : s.requireSlot k go = go := by
  simp [State.requireSlot, h]

theorem requireWindows_pass {src inLen dst outLen : Nat} {go : Result} (h1 : src + inLen ≤ 512)
    (h2 : dst + outLen ≤ 512) : s.requireWindows src inLen dst outLen go = go := by
  have hw : wmBytes = 512 := rfl
  simp only [State.requireWindows]
  rw [if_neg (by omega)]

theorem requireKey_pass {k : Nat} {go : RoundKeys → Result} (h : (s.slot k).valid = true) :
    s.requireKey k go = go (s.slot k).rk := by
  simp [State.requireKey, h]

/-! ## The checks fail -/

theorem requireComponent_fail {go : Result} (h : s.cfg.componentCmds = false) :
    s.requireComponent go = .next (s.finish .illegalCommand false) := by
  simp [State.requireComponent, h, State.raise]

theorem requireSlot_fail {k : Nat} {go : Result} (h : s.cfg.numSlots ≤ k) :
    s.requireSlot k go = .next (s.finish .badSlot false) := by
  simp [State.requireSlot, Nat.not_lt.2 h, State.raise]

theorem requireWindows_fail {src inLen dst outLen : Nat} {go : Result}
    (h : 512 < src + inLen ∨ 512 < dst + outLen) :
    s.requireWindows src inLen dst outLen go = .next (s.finish .rangeError false) := by
  have hw : wmBytes = 512 := rfl
  simp only [State.requireWindows]
  rw [if_pos (by omega)]
  rfl

theorem requireKey_fail {k : Nat} {go : RoundKeys → Result} (h : (s.slot k).valid = false) :
    s.requireKey k go = .next (s.finish .keyNotValid false) := by
  simp [State.requireKey, h, State.raise]

end Sys2Proof.Machine
end

