-- ==== Sys2Proof/Laws/Exec.lean ====
section
/-! SUPPORT. What each command can do, said once over the shared operations, and what no command touches. -/

namespace Sys2Proof.Machine

variable {s t : State}

theorem execExpand_next {k : Nat} : execExpand k s = .next t ↔
    (k < s.cfg.numSlots ∧ ∃ key, s.wm.readBytes keyAddr keyLen = some key ∧
      t = ((s.setSlot k (expandedSlot (Block.ofBytes key))).writeWm keyAddr (List.replicate keyLen 0)).finish
        .ok false) ∨
    (s.cfg.numSlots ≤ k ∧ t = s.finish .badSlot false) := by
  simp only [execExpand, requireSlot_next, withBytes_next, Host.Outcome.next.injEq, @eq_comm _ t]

theorem execClear_next {k : Nat} : execClear k s = .next t ↔
    (k < s.cfg.numSlots ∧ t = (s.setSlot k .empty).finish .ok false) ∨
    (s.cfg.numSlots ≤ k ∧ t = s.finish .badSlot false) := by
  simp only [execClear, requireSlot_next, Host.Outcome.next.injEq, @eq_comm _ t]

/-- A command that needs a keyed slot fails one of its checks, or passes them all and goes on. -/
theorem execEncrypt_next {k src dst : Nat} (h : execEncrypt k src dst s = .next t) :
    (∃ e ∈ [ErrCode.illegalCommand, .badSlot, .rangeError, .keyNotValid], t = s.finish e false) ∨
    (src + 16 ≤ 512 ∧ dst + 16 ≤ 512 ∧ ∃ p, s.wm.readBytes src 16 = some p ∧
      t = (s.writeWm dst (cipherBytes (s.slot k).rk p)).finish .ok false) := by
  simp only [execEncrypt, requireComponent_next, requireSlot_next, requireWindows_next, requireKey_next,
    withBytes_next, Host.Outcome.next.injEq, @eq_comm State _ t] at h
  rcases h with ⟨-, ⟨-, ⟨h1, h2, ⟨-, p, hp, rfl⟩ | ⟨-, rfl⟩⟩ | ⟨-, rfl⟩⟩ | ⟨-, rfl⟩⟩ | ⟨-, rfl⟩
  · exact .inr ⟨h1, h2, p, hp, rfl⟩
  all_goals exact .inl ⟨_, by simp, rfl⟩

/-- What a codec command answers: an error that changes nothing else, or a stored conversion of its source. -/
theorem codec_next {src inLen dst outLen : Nat} {f : List Byte → Option (List Byte)}
    (h : s.requireComponent (s.transform src inLen dst outLen f) = .next t) :
    (∃ e ∈ [ErrCode.illegalCommand, .rangeError], t = s.finish e false) ∨
    (∃ xs, s.wm.readBytes src inLen = some xs ∧ f xs = none ∧ t = s.finish .malformedIdentifier false) ∨
    (src + inLen ≤ 512 ∧ dst + outLen ≤ 512 ∧ ∃ xs ys, s.wm.readBytes src inLen = some xs ∧ f xs = some ys ∧
      t = (s.writeWm dst ys).finish .ok false) := by
  rcases requireComponent_next.1 h with ⟨-, h⟩ | ⟨-, rfl⟩
  · rcases transform_next.1 h with ⟨h1, h2, xs, hx, ⟨ys, hf, rfl⟩ | ⟨hf, rfl⟩⟩ | ⟨-, rfl⟩
    · exact .inr (.inr ⟨h1, h2, xs, ys, hx, hf, rfl⟩)
    · exact .inr (.inl ⟨xs, hx, hf, rfl⟩)
    · exact .inl ⟨_, by simp, rfl⟩
  · exact .inl ⟨_, by simp, rfl⟩

/-- Everything a MINT can answer: an error before its request, a hold, InsufficientRandomness, or a token. -/
theorem execMint_next {k : Nat} (h : execMint k s = .next t) :
    (∃ e ∈ [ErrCode.badSlot, .keyNotValid, .malformedIdentifier], t = s.finish e false) ∨
    (k < s.cfg.numSlots ∧ (s.slot k).valid = true ∧
      ∃ ident id8 cap, s.wm.readBytes idAddr idLen = some ident ∧ idExtract ident = some id8 ∧
        s.wm.readBytes capAddr 1 = some cap ∧
        s.requestEntropy (.mint k) (fun s' nonce => .next (mintToken (s.slot k).rk id8 cap s' nonce)) = .next t) := by
  simp only [execMint, requireSlot_next, requireKey_next, withBytes_next] at h
  rcases h with ⟨hk, ⟨hv, ident, hid, h⟩ | ⟨-, rfl⟩⟩ | ⟨-, rfl⟩
  · cases he : idExtract ident with
    | none =>
      simp only [he, raise_next] at h
      exact .inl ⟨_, by simp, h⟩
    | some id8 =>
      simp only [he, withBytes_next] at h
      obtain ⟨cap, hc, h⟩ := h
      exact .inr ⟨hk, hv, ident, id8, cap, hid, he, hc, h⟩
  all_goals exact .inl ⟨_, by simp, rfl⟩

/-- A MINT whose checks pass is its entropy request. -/
theorem execMint_eq {k : Nat} {ident id8 cap : List Byte} (hk : k < s.cfg.numSlots) (hv : (s.slot k).valid = true)
    (hid : s.wm.readBytes idAddr idLen = some ident) (he : idExtract ident = some id8)
    (hc : s.wm.readBytes capAddr 1 = some cap) : execMint k s =
      s.requestEntropy (.mint k) (fun s' nonce => .next (mintToken (s.slot k).rk id8 cap s' nonce)) := by
  rw [execMint, requireSlot_pass hk, requireKey_pass hv, withBytes_some hid]
  simp only [he]
  rw [withBytes_some hc]

/-- A VALIDATE changes nothing but the flags. -/
theorem execValidate_next {k : Nat} (h : execValidate k s = .next t) :
    (∃ e ∈ [ErrCode.badSlot, .keyNotValid], t = s.finish e false) ∨
    (k < s.cfg.numSlots ∧ (s.slot k).valid = true ∧ ∃ sub jti tag,
      s.wm.readBytes (tokAddr + subStart) fieldLen = some sub ∧
      s.wm.readBytes (tokAddr + jtiStart) fieldLen = some jti ∧
      s.wm.readBytes (tokAddr + tagStart) tagFieldLen = some tag ∧
      t = s.verdict (authentic s.cfg.alphabet (s.slot k).rk sub jti tag)) := by
  simp only [execValidate, requireSlot_next, requireKey_next, withBytes_next, Host.Outcome.next.injEq,
    @eq_comm State _ t] at h
  rcases h with ⟨hk, ⟨hv, sub, h1, jti, h2, tag, h3, rfl⟩ | ⟨-, rfl⟩⟩ | ⟨-, rfl⟩
  · exact .inr ⟨hk, hv, sub, jti, tag, h1, h2, h3, rfl⟩
  all_goals exact .inl ⟨_, by simp, rfl⟩

theorem execValidate_eq {k : Nat} {sub jti tag : List Byte} (hk : k < s.cfg.numSlots)
    (hv : (s.slot k).valid = true) (h1 : s.wm.readBytes (tokAddr + subStart) fieldLen = some sub)
    (h2 : s.wm.readBytes (tokAddr + jtiStart) fieldLen = some jti)
    (h3 : s.wm.readBytes (tokAddr + tagStart) tagFieldLen = some tag) :
    execValidate k s = .next (s.verdict (authentic s.cfg.alphabet (s.slot k).rk sub jti tag)) := by
  rw [execValidate, requireSlot_pass hk, requireKey_pass hv, withBytes_some h1, withBytes_some h2, withBytes_some h3]

/-- No command refuses. -/
theorem exec_ne_refused (i : Instr) (s : State) (r : Refusal) : exec i s ≠ .refused r := by
  cases i <;>
    simp only [exec, execExpand, execClear, execEncrypt, execB64enc, execB64dec, execHexenc, execHexdec, execMint,
      execValidate, State.transform, State.requireComponent, State.requireSlot, State.requireWindows,
      State.requireKey, State.withBytes, State.requestEntropy, State.raise] <;>
    repeat' split
  all_goals simp

/-- TagEq is equality of tags of one length (44_token_validator.md R202). -/
theorem foldl_or_eq_zero : ∀ (l : List Byte) (acc : Byte),
    l.foldl (fun acc d => acc ||| d) acc = 0 ↔ acc = 0 ∧ ∀ d ∈ l, d = 0
  | [], acc => by simp
  | d :: l, acc => by
    rw [List.foldl_cons, foldl_or_eq_zero l (acc ||| d)]
    simp [BitVec.or_eq_zero_iff, and_assoc]

theorem zipWith_xor_zero : ∀ {a b : List Byte}, a.length = b.length →
    ((∀ d ∈ List.zipWith (fun x y => x ^^^ y) a b, d = 0) ↔ a = b)
  | [], [], _ => by simp
  | x :: a, y :: b, h => by
    have ih := zipWith_xor_zero (a := a) (b := b) (by simpa using h)
    simp only [List.zipWith_cons_cons, List.forall_mem_cons, BitVec.ofNat_eq_ofNat, BitVec.xor_eq_zero_iff,
      List.cons.injEq] at ih ⊢
    rw [ih]

theorem tagEq_iff (a b : List Byte) : tagEq a b = true ↔ a = b := by
  simp only [tagEq, Bool.and_eq_true, decide_eq_true_eq, beq_iff_eq, foldl_or_eq_zero, true_and]
  constructor
  · rintro ⟨hl, h⟩
    exact (zipWith_xor_zero hl).1 h
  · rintro rfl
    exact ⟨rfl, (zipWith_xor_zero rfl).2 rfl⟩

end Sys2Proof.Machine
end

