-- ==== Sys2Proof/Laws/PerInstr.lean ====
section
/-! SUPPORT. Statements for all instructions, one lemma per constructor: the command word that encodes a well-formed
instruction carries its opcode and its operands in the fields of 30_encoding.md R80 to R82, and zero elsewhere. -/

namespace Sys2Proof.Laws.EncodedFields

/-- The fields of `w` are exactly these and its reserved bit is 0. -/
def holds (w : Word) (op slot strict src dst n : Nat) : Prop :=
  fieldOp w = op ∧ fieldSlot w = slot ∧ fieldS w = strict ∧ fieldRsv w = 0 ∧ fieldSrc w = src ∧ fieldDst w = dst ∧
    fieldN w = n

/-- The fields of each command, by the table of 30_encoding.md R82. -/
def fieldsOf (w : Word) : Instr → Prop
  | .expand slot => holds w 1 slot 0 0 0 0
  | .clear slot => holds w 2 slot 0 0 0 0
  | .encrypt slot src dst => holds w 3 slot 0 src dst 0
  | .b64enc src dst n => holds w 4 0 0 src dst n
  | .b64dec src dst n => holds w 5 0 0 src dst n
  | .hexenc src dst n => holds w 6 0 0 src dst n
  | .hexdec strict src dst n => holds w 7 0 strict.toNat src dst n
  | .mint slot => holds w 8 slot 0 0 0 0
  | .validate slot => holds w 9 slot 0 0 0 0

def Statement (i : Instr) : Prop := i.wellFormed = true → fieldsOf (encode i) i

variable {slot src dst n : Nat}

theorem slotOnly (op : Nat) (hop : op < 16) (h : slotFits slot = true) :
    holds (packWord op slot 0 0 0 0) op slot 0 0 0 0 :=
  fields_packWord hop (of_decide_eq_true h) (by decide) (by decide) (by decide) (by decide)

theorem codec (op strict : Nat) (hop : op < 16) (hs : strict < 2)
    (h : (addrFits src && addrFits dst && countFits n) = true) :
    holds (packWord op 0 strict src dst n) op 0 strict src dst n := by
  simp only [addrFits, countFits, Bool.and_eq_true, decide_eq_true_eq] at h
  exact fields_packWord hop (by decide) hs h.1.1 h.1.2 h.2

theorem expand (slot : Nat) : Statement (.expand slot) := slotOnly 1 (by decide)
theorem clear (slot : Nat) : Statement (.clear slot) := slotOnly 2 (by decide)

theorem encrypt (slot src dst : Nat) : Statement (.encrypt slot src dst) := fun h => by
  simp only [Instr.wellFormed, slotFits, addrFits, Bool.and_eq_true, decide_eq_true_eq] at h
  exact fields_packWord (by decide) h.1.1 (by decide) h.1.2 h.2 (by decide)

theorem b64enc (src dst n : Nat) : Statement (.b64enc src dst n) := codec 4 0 (by decide) (by decide)
theorem b64dec (src dst n : Nat) : Statement (.b64dec src dst n) := codec 5 0 (by decide) (by decide)
theorem hexenc (src dst n : Nat) : Statement (.hexenc src dst n) := codec 6 0 (by decide) (by decide)
theorem hexdec (strict : Bool) (src dst n : Nat) : Statement (.hexdec strict src dst n) :=
  codec 7 strict.toNat (by decide) (by cases strict <;> decide)
theorem mint (slot : Nat) : Statement (.mint slot) := slotOnly 8 (by decide)
theorem validate (slot : Nat) : Statement (.validate slot) := slotOnly 9 (by decide)

end Sys2Proof.Laws.EncodedFields
end

