-- ==== Sys2Proof/Laws/Step.lean ====
section
/-! SUPPORT. What a step and each agent's move can do, said once. -/

namespace Sys2Proof.Machine

variable {s : State} {rest : List Event}

/-- With a move listed, the step is that move on the state that has it taken off the list. -/
theorem step_cons {e : Event} (h : s.events = e :: rest) : step s = State.move { s with events := rest } e := by
  simp [step, h]

/-- With none listed, the step is the core's turn. -/
theorem step_nil (h : s.events = []) : step s = s.coreTurn := by
  simp only [step, h]

theorem coreTurn_held {i : Instr} (h : s.latched = some i) : s.coreTurn = exec i s := by
  simp only [State.coreTurn, h]

theorem coreTurn_idle (h : s.latched = none) : s.coreTurn = .next s := by
  simp only [State.coreTurn, h]

/-- An answer that reaches its request goes to the front of the answers of the held command. -/
theorem answerArrives_taken {i : Instr} {n : Nat} {a : EntropyAnswer} (h : s.latched = some i) (hn : n = s.request) :
    s.answerArrives n a = exec i { s with entropy := a :: s.entropy } := by
  simp only [State.answerArrives, h, if_pos hn]

/-- An answer to any other request changes nothing. -/
theorem answerArrives_ignored {n : Nat} {a : EntropyAnswer} (h : s.latched = none ∨ n ≠ s.request) :
    s.answerArrives n a = .next s := by
  unfold State.answerArrives
  split
  · rename_i i hi
    rw [if_neg (h.resolve_left (by simp [hi]))]
  · rfl

/-- A held command that is held again is as it was. -/
theorem hold_of_held {i : Instr} (h1 : s.latched = some i) (h2 : s.result = false) : s.hold i = s := by
  cases s
  simp_all [State.hold]

/-! ## Host accesses -/

@[simp] theorem length_leBytes : ∀ (n : Nat) (v : Word), (leBytes n v).length = n
  | 0, _ => rfl
  | n + 1, v => by simp only [leBytes, List.length_cons, length_leBytes n]

/-- The register offsets as numbers. -/
theorem offset_eq_iff (off : Offset) : (off = cmdOffset ↔ off.toNat = 0x200) ∧
    (off = statusOffset ↔ off.toNat = 0x204) ∧ (off = infoOffset ↔ off.toNat = 0x208) ∧
    (reservedOffset ≤ off ↔ 0x20C ≤ off.toNat) := by
  refine ⟨?_, ?_, ?_, ?_⟩ <;>
    simp [← BitVec.toNat_inj, BitVec.le_def, cmdOffset, statusOffset, infoOffset, reservedOffset]

theorem inWm_iff (off : Offset) : inWm off = true ↔ off.toNat < 0x200 := by
  have hw : wmBytes = 512 := rfl
  simp [inWm, hw]

/-- A supported read that the block allows: STATUS and INFO at any time, the rest while idle. -/
theorem step_read {w : Width} {off : Offset} (he : s.events = .access (.read w off) :: rest)
    (hs : widthSupported w off = true) (hl : s.latched = none ∨ off = statusOffset ∨ off = infoOffset) :
    step s = State.hostRead { s with events := rest } w off := by
  rw [step_cons he, State.move, State.hostAccess]
  have h1 : (Access.read w off).supported = true := hs
  have h2 : (State.busy { s with events := rest } && !(Access.read w off).allowedWhileBusy) = false := by
    rcases hl with h | rfl | rfl
    · simp [State.busy, h]
    · simp [Access.allowedWhileBusy]
    · simp [Access.allowedWhileBusy]
  rw [h1, h2]
  rfl

/-- A supported write to an idle block. -/
theorem step_write {w : Width} {off : Offset} {v : Word} (he : s.events = .access (.write w off v) :: rest)
    (hs : widthSupported w off = true) (hl : s.latched = none) :
    step s = State.hostWrite { s with events := rest } w off v := by
  rw [step_cons he, State.move, State.hostAccess]
  have h1 : (Access.write w off v).supported = true := hs
  have h2 : (State.busy { s with events := rest } && !(Access.write w off v).allowedWhileBusy) = false := by
    simp [State.busy, hl]
  rw [h1, h2]
  rfl

theorem hostRead_wm {w : Width} {off : Offset} (h : off.toNat < 0x200) :
    s.hostRead w off = s.withBytes off.toNat w.bytes fun vs => .next (s.deliver (ofLeBytes vs)) := by
  rw [State.hostRead, if_pos ((inWm_iff off).2 h)]

theorem hostRead_register {w : Width} {off : Offset} (h : 0x200 ≤ off.toNat) :
    s.hostRead w off = .next (s.deliver (s.registerValue off)) := by
  rw [State.hostRead, if_neg fun h' => absurd ((inWm_iff off).1 h') (by omega)]

theorem hostWrite_wm {w : Width} {off : Offset} {v : Word} (h : off.toNat < 0x200) :
    s.hostWrite w off v = .next (s.writeWm off.toNat (leBytes w.bytes v)) := by
  rw [State.hostWrite, if_pos ((inWm_iff off).2 h)]

theorem hostWrite_cmd {w : Width} {off : Offset} {v : Word} (h : off.toNat = 0x200) :
    s.hostWrite w off v = s.runCommand v := by
  rw [State.hostWrite, if_neg fun h' => absurd ((inWm_iff off).1 h') (by omega), if_pos ((offset_eq_iff off).1.2 h)]

theorem hostWrite_elsewhere {w : Width} {off : Offset} {v : Word} (h : 0x200 < off.toNat) :
    s.hostWrite w off v = .next s := by
  rw [State.hostWrite, if_neg fun h' => absurd ((inWm_iff off).1 h') (by omega),
    if_neg fun h' => absurd ((offset_eq_iff off).1.1 h') (by omega)]

@[simp] theorem registerValue_status : s.registerValue statusOffset = s.statusWord := by
  simp [State.registerValue]

@[simp] theorem registerValue_info : s.registerValue infoOffset = infoWord s.cfg := by
  rw [State.registerValue, if_neg (by decide), if_pos rfl]

theorem registerValue_other {off : Offset} (h1 : off.toNat ≠ 0x204) (h2 : off.toNat ≠ 0x208) :
    s.registerValue off = 0 := by
  rw [State.registerValue, if_neg fun h => h1 ((offset_eq_iff off).2.1.1 h),
    if_neg fun h => h2 ((offset_eq_iff off).2.2.1.1 h)]

end Sys2Proof.Machine
end

