-- ==== Sys2Proof/Tests/Slice0.lean ====
section
/-! SUPPORT. The model's own tests, their expected values from 30_encoding.md R88, from 95_test_vectors.md and from
FIPS-197, and for each statement about the model a concrete case that meets its hypotheses. -/

namespace Sys2Proof.Tests

open Sys2Proof.Machine

/- One theorem at a time: many kernel evaluations at once need more threads than the memory limit leaves room for. -/
set_option Elab.async false

/-! ## Helpers -/

/-- The low n bytes of v, most significant first: a byte string as the vectors write it. -/
def hx : Nat → Nat → List Byte
  | 0, _ => []
  | n + 1, v => BitVec.ofNat 8 (v / 256 ^ n) :: hx n v

/-- Slot k holds the schedule of the 16 key bytes v. -/
def keyed (k v : Nat) (s : State) : State := s.setSlot k (expandedSlot (Block.ofBytes (hx 16 v)))

/-- The state after one command word, when the step answers a next state. -/
def after (s : State) (w : Word) : Option State :=
  match step (s.withCommand w) with
  | .next t => some t
  | .fault _ => none
  | .refused _ => none

/-- STATUS and a window of WM after one command word. -/
def result (s : State) (w : Word) (a n : Nat) : Option (Word × Option (List Byte)) :=
  (after s w).map fun t => (t.statusWord, t.wm.readBytes a n)

/-- A next state on which p holds. -/
def nextWith (r : Result) (p : State → Bool) : Bool :=
  match r with
  | .next t => p t
  | .fault _ => false
  | .refused _ => false

theorem exists_next {r : Result} {p : State → Bool} (h : nextWith r p = true) : ∃ t, r = .next t ∧ p t = true := by
  cases r with
  | next t => exact ⟨t, rfl, h⟩
  | fault _ => exact (Bool.false_ne_true h).elim
  | refused _ => exact (Bool.false_ne_true h).elim

def docKey : Nat := 0xabbadabad0000000abbadabad0000000

/-- The characters a779384b-ed4a-441a-95b6-577caeeec081, as a numeral: the kernel is slow at long texts. -/
def docId : List Byte := hx 36 0x61373739333834622d656434612d343431612d393562362d353737636165656563303831

def nonce0 : Nonce := ⟨0, 0, 0, 0, 0, 0, 0⟩
def nonce1 : Nonce := ⟨1, 2, 3, 4, 5, 6, 7⟩

/-- Slot 0 holds the doc key, IDBUF the doc identifier, CAP 0x00, and the source answers as listed (W2). -/
def mintable (answers : List EntropyAnswer) : State :=
  { (((keyed 0 docKey State.reset).writeWm 0x040 docId).writeWm 0x030 [0]) with entropy := answers }

/-- The token of V-MINT-1, its header, its payload, its tag and NUL (`test_token_text` has the characters). -/
def token1 : List Byte :=
  hx 45 0x657941695957786e496a6f67496b4646557a45794f43497349434a30655841694f694169536c6455496942392e ++
  hx 44 0x6579416963335669496a6f67496a6b31596a59314e7a646a5957566c5a574d774f4445694c434169616e5270 ++
  hx 45 0x496a6f67496a41774d4441774d4441774d4441774d4441774d4441694c434169646d5679496a6f674d5342392e ++
  hx 45 0x496d5a6d5a574531597a51784f47526d4f4455324d3246694e7a4a6d5a5745344f4455314d3255774e574d7a00

/-- TOKBUF holds a token, slot 0 the doc key. -/
def holding (tok : List Byte) : State :=
  { keyed 0 docKey State.reset with wm := ⟨tok.mapIdx fun i v => (0x100 + i, v)⟩ }

/-- A build with other parameters. -/
def builtWith (n : SlotCount) (al : B64Alphabet) (comp : Bool) : State := State.resetOf ⟨n, al, comp, .unwritten⟩

/-! ## Well-formedness (30_encoding.md R88: what an assembler refuses) -/

theorem test_slot_four_refused : [Instr.expand 4, .clear 4, .encrypt 4 0 0, .mint 4, .validate 4].map assemble =
    [none, none, none, none, none] := by decide
theorem test_src_512_refused : [Instr.encrypt 0 512 0, .b64enc 512 0 0, .b64dec 512 0 0, .hexenc 512 0 0,
    .hexdec false 512 0 0].map assemble = [none, none, none, none, none] := by decide
theorem test_dst_512_refused : [Instr.encrypt 0 0 512, .b64enc 0 512 0, .b64dec 0 512 0, .hexenc 0 512 0,
    .hexdec true 0 512 0].map assemble = [none, none, none, none, none] := by decide
theorem test_n_64_refused : [Instr.b64enc 0 0 64, .b64dec 0 0 64, .hexenc 0 0 64, .hexdec false 0 0 64].map assemble =
    [none, none, none, none] := by decide

/-! ## Decoding: the examples of 30_encoding.md R88 and 95_test_vectors.md V-ENC -/

theorem test_decode_words : [0x00000001, 0x00000031, 0x00000012, 0x01208003, 0x00401013, 0x05208004, 0x05409005,
    0x0D60A006, 0x0D80B007, 0x0D80B047, 0x00000008, 0x00000009, 0x00000019, 0xFC01FF04].map (decodeTableWord 32) =
    [some (.expand 0), some (.expand 3), some (.clear 1), some (.encrypt 0 0x080 0x090),
      some (.encrypt 1 0x010 0x020), some (.b64enc 0x080 0x090 1), some (.b64dec 0x090 0x0A0 1),
      some (.hexenc 0x0A0 0x0B0 3), some (.hexdec false 0x0B0 0x0C0 3), some (.hexdec true 0x0B0 0x0C0 3),
      some (.mint 0), some (.validate 0), some (.validate 1), some (.b64enc 0x1FF 0x000 63)] := by decide +kernel
theorem test_decode_illegal : [0x00000000, 0x00000081, 0x04000001, 0x00000101, 0x0000000A, 0x0000000F, 0x01208043,
    0x05208014, 0x05208044, 0x0D80B057, 0x00000048].all (fun w => (decodeTableWord 32 w).isNone) = true := by
  decide +kernel
theorem test_encode_words : [Instr.expand 3, .clear 1, .encrypt 1 0x010 0x020, .b64enc 0x080 0x090 1,
    .b64dec 0x090 0x0A0 1, .hexenc 0x0A0 0x0B0 3, .hexdec true 0x0B0 0x0C0 3, .mint 0, .validate 1].map assemble =
    [some 0x00000031, some 0x00000012, some 0x00401013, some 0x05208004, some 0x05409005, some 0x0D60A006,
      some 0x0D80B047, some 0x00000008, some 0x00000019] := by decide +kernel
/-- V-ENC, the last lines: no component commands, and 0x0000000A with KEYV[0] = 1. -/
theorem test_illegal_status : ((result (builtWith .four .url false) 0x05208004 0 0).map Prod.fst,
    (result (keyed 0 0 State.reset) 0x0000000A 0 0).map Prod.fst) = (some 0x00000060, some 0x00000160) := by
  decide +kernel
/-- The word placed for the fetch is the one the step runs. -/
theorem test_withFetchWord : nextWith (step (State.reset.withFetchWord 32 0x00000009))
    (fun t => t.statusWord == 0x00000050 && t.events == []) = true := by decide +kernel

/-! ## The commands -/

/-- V-KS-1: the schedule, STATUS, and KEY zeroed. -/
theorem test_expand_schedule : (after (State.reset.writeWm 0 (hx 16 0x2b7e151628aed2a6abf7158809cf4f3c)) 0x00000001).map
    (fun t => (t.statusWord, t.wm.readBytes 0 16, (t.slot 0).rk[1].toBytes, (t.slot 0).rk[10].toBytes)) =
    some (0x00000100, some (hx 16 0), hx 16 0xa0fafe1788542cb123a339392a6c7605,
      hx 16 0xd014f9a8c9ee2589e13f0cc8b6630ca6) := by decide +kernel
/-- V-KS-8: BadSlot with two slots, KEY unchanged. -/
theorem test_expand_bad_slot : result ((builtWith .two .url true).writeWm 0 (hx 16 docKey)) 0x00000031 0 16 =
    some (0x00000080, some (hx 16 docKey)) := by decide +kernel

/-- V-KS-7: slot 3 keeps its schedule. -/
theorem test_clear_one_slot : (after (keyed 0 0 (keyed 3 docKey State.reset)) 0x00000002).map
    (fun t => (t.statusWord, t.slot 0, (t.slot 3).rk[10].toBytes)) =
    some (0x00000800, KeySlot.empty, hx 16 0xb1380a04e62b05366b12b15847dd5246) := by decide +kernel
theorem test_clear_bad_slot : (result (builtWith .one .url true) 0x00000012 0 0).map Prod.fst = some 0x00000080 := by
  decide +kernel

/-- V-AES-2. -/
theorem test_encrypt_fips : result ((keyed 0 0x000102030405060708090a0b0c0d0e0f State.reset).writeWm 0x080
    (hx 16 0x00112233445566778899aabbccddeeff)) 0x01208003 0x090 16 =
    some (0x00000100, some (hx 16 0x69c4e0d86a7b0430d8cdb78070b4c55a)) := by decide +kernel
/-- V-AES-9, at the highest legal address and in place. -/
theorem test_encrypt_in_place : result ((keyed 0 0 State.reset).writeWm 0x1F0 (hx 16 0)) 0x03E1F003 0x1F0 16 =
    some (0x00000100, some (hx 16 0x66e94bd4ef8a2c3b884cfa59ca342b2e)) := by decide +kernel

theorem test_b64enc_url : result (State.reset.writeWm 0x080 (hx 3 0x14fb9c ++ hx 3 0x03d97e)) 0x09208004 0x090 8 =
    some (0, some (ascii "FPucA9l-")) := by decide +kernel
theorem test_b64enc_std : result ((builtWith .four .std true).writeWm 0x080 (hx 3 0xfbefbe)) 0x05208004 0x090 4 =
    some (0, some (ascii "++++")) := by decide +kernel

theorem test_b64dec_tolerant : result (State.reset.writeWm 0x090 (ascii "TW=u")) 0x05409005 0x0A0 3 =
    some (0, some (hx 3 0x4d602e)) := by decide +kernel
theorem test_b64dec_url : result (State.reset.writeWm 0x090 (ascii "-_-_")) 0x05409005 0x0A0 3 =
    some (0, some (hx 3 0xfbffbf)) := by decide +kernel

theorem test_hexenc_digits : result (State.reset.writeWm 0x0A0 (hx 3 0x00ff5a)) 0x0D60A006 0x0B0 6 =
    some (0, some (ascii "00ff5a")) := by decide +kernel
/-- HEXENC 0x1FF, 0x000, 3: the source window ends past 512. -/
theorem test_hexenc_range : (result State.reset 0x0C01FF06 0 0).map Prod.fst = some 0x00000070 := by decide +kernel

/-- HEXDEC 0x0B0, 0x0C0, 3 of characters that are no digits. -/
theorem test_hexdec_tolerant : result (State.reset.writeWm 0x0B0 (ascii "g11GAa")) 0x0D80B007 0x0C0 3 =
    some (0, some [0x01, 0x10, 0x0a]) := by decide +kernel
/-- HEXDEC.S of the same: MalformedIdentifier, and nothing is written. -/
theorem test_hexdec_strict : result (State.reset.writeWm 0x0B0 (ascii "g11GAa")) 0x0D80B047 0x0C0 3 =
    some (0x00000010, none) := by decide +kernel

theorem test_token_text : docId = ascii "a779384b-ed4a-441a-95b6-577caeeec081" ∧ token1 =
    ascii "eyAiYWxnIjogIkFFUzEyOCIsICJ0eXAiOiAiSldUIiB9.eyAic3ViIjogIjk1YjY1NzdjYWVlZWMwODEiLCAianRpIjogIjAwMDAw" ++
      ascii "MDAwMDAwMDAwMDAiLCAidmVyIjogMSB9.ImZmZWE1YzQxOGRmODU2M2FiNzJmZWE4ODU1M2UwNWMz" ++ [0] := by decide +kernel

/-- V-MINT-2: the V-MINT-1 token with another JTI field and another TAG field. -/
theorem test_mint_token : result (mintable [.bytes nonce1]) 0x00000008 0x100 179 =
    some (0x00000100, some (overwrite (overwrite token1 93 (ascii "IjAwMDEwMjAzMDQwNTA2MDci")) 134
      (ascii "IjkxMmE5MGJlODBlZTA2MGYzMTJhNTJjZGQzYTY1MDAw"))) := by decide +kernel
/-- The source fails: InsufficientRandomness, and no token byte is written. -/
theorem test_mint_fail : result (mintable [.fail, .wait]) 0x00000008 0x100 1 = some (0x00000120, none) := by
  decide +kernel

/-- V-VAL-1. -/
theorem test_validate_authentic : (result (holding token1) 0x00000009 0 0).map Prod.fst = some 0x00000102 := by
  decide +kernel
/-- V-VAL-3: the tag's first byte incremented. -/
theorem test_validate_tampered : (result (holding (overwrite token1 134
    (ascii "IjAwZWE1YzQxOGRmODU2M2FiNzJmZWE4ODU1M2UwNWMz"))) 0x00000009 0 0).map Prod.fst = some 0x00000130 := by
  decide +kernel

/-! ## Units, flags and the host interface -/

/-- V-AES-3. -/
theorem test_field_values : (xtime 0x57, gfMul 0x57 0x13, sbox 0x53, (⟨0xdb, 0x13, 0x53, 0x45⟩ : Column).mix) =
    (0xAE, 0xFE, 0xED, ⟨0x8e, 0x4d, 0xa1, 0xbc⟩) := by decide +kernel
/-- V-AES-1, the state after the first full round. -/
theorem test_round_one : (fullRound (Block.ofBytes (hx 16 0x193de3bea0f4e22b9ac68d2ae9f84808))
    (Block.ofBytes (hx 16 0xa0fafe1788542cb123a339392a6c7605))).toBytes =
    hx 16 0xa49c7ff2689f352b6b5bea43026a5049 := by decide +kernel
/-- 10_state.md R32 and V-KS-8. -/
theorem test_info_word : (infoWord Config.default, infoWord (builtWith .two .url true).cfg) =
    (0x00001401, 0x00001201) := by decide
/-- A reset withdraws the request of a held MINT: its late answer is ignored by a new MINT, which is still held, while
the answer to the new MINT's own request ends it (70_reset_and_hazards.md R250). -/
theorem test_late_answer : nextWith (step { mintable [] with
      latched := some (.mint 0), request := 1, events := [.entropyAnswer 0 .fail] })
    (fun t => t.latched == some (.mint 0)) = true ∧ nextWith (step { mintable [] with
      latched := some (.mint 0), request := 1, events := [.entropyAnswer 1 .fail] })
    (fun t => t.statusWord == 0x00000120) = true ∧
    nextWith (step { mintable [] with latched := some (.mint 0), events := [.reset] })
    (fun t => t.request == 1 && t.latched == none) = true := by decide +kernel
/-- A 32-bit access is little-endian (20_memory.md R51). -/
theorem test_word_write : nextWith (step { State.reset with events := [wr32 0x040 0x11223344] })
    (fun t => t.wm.readBytes 0x040 4 == some [0x44, 0x33, 0x22, 0x11]) = true := by decide +kernel

/-! ## Cases that meet the hypotheses of the statements, clause by clause, at the ends of their ranges -/

/-- A list of moves on a state. -/
def doing (s : State) (e : List Event) : State := { s with events := e }

/-- A MINT of slot 0 held on the entropy source. -/
def held (answers : List EntropyAnswer) : State := { mintable answers with latched := some (.mint 0) }

/-- A build without component commands. -/
def noComp : State := builtWith .four .url false

theorem witness_DecodeOfEncodeIsTheCommand :
    (Instr.hexdec true 511 511 63).wellFormed = true ∧ Config.default.componentCmds = true ∧
    (Instr.mint 3).wellFormed = true ∧ (Instr.mint 3).isComponent = false := by decide

theorem witness_EncodeOfDecodeIsTheWord :
    decode Config.default 0xFFFFFF47 = .instr (.hexdec true 511 511 63) ∧
    decode noComp.cfg 0x00000039 = .instr (.validate 3) := by decide +kernel

theorem witness_OneRowSelectsEachLegalWord :
    Config.default.componentCmds = true ∧ decode Config.default 0x00000032 = .instr (.clear 3) ∧
    (∃ r ∈ opcodeRows, r.selects 0x00000032 = true) := by decide +kernel

theorem witness_IllegalWordsRaiseIllegalCommand :
    (∀ w : Word, (doing State.reset [wr32 0x200 w]).latched = none ∧
      (doing State.reset [wr32 0x200 w]).events = [wr32 0x200 w]) ∧
    fieldOp 0x00000000 = 0 ∧ 10 ≤ fieldOp 0x0000000A ∧ 10 ≤ fieldOp 0x0000000F ∧ fieldRsv 0x00000081 ≠ 0 ∧
    (fieldOp 0x04000001 = 1 ∧ fieldN 0x04000001 ≠ 0) ∧ (fieldOp 0x00000048 = 8 ∧ fieldS 0x00000048 ≠ 0) ∧
    (fieldOp 0x00000102 = 2 ∧ fieldSrc 0x00000102 ≠ 0) ∧ (fieldOp 0x00020009 = 9 ∧ fieldDst 0x00020009 ≠ 0) ∧
    (fieldOp 0x01208043 = 3 ∧ fieldS 0x01208043 ≠ 0) ∧ (fieldOp 0x05208014 = 4 ∧ fieldSlot 0x05208014 ≠ 0) ∧
    (fieldOp 0x0D80B057 = 7 ∧ fieldSlot 0x0D80B057 ≠ 0) ∧
    (fieldOp 0x05208004 = 4 ∧ (doing noComp [wr32 0x200 0x05208004]).cfg.componentCmds = false) :=
  ⟨fun _ => ⟨rfl, rfl⟩, by decide +kernel⟩

theorem witness_ComponentOpcodesGoWithTheParameter :
    noComp.cfg.componentCmds = false ∧ fieldOp 0x01208003 = 3 ∧ fieldOp 0x0D80B047 = 7 ∧ fieldOp 0x00000012 = 2 ∧
    fieldOp 0x00000008 = 8 := by decide +kernel

theorem witness_CommandWriteRunsTheDecodedCommand :
    (doing State.reset [wr32 0x200 0x00000009]).latched = none ∧
    (doing State.reset [wr32 0x200 0x00000009]).events = wr32 0x200 0x00000009 :: [] ∧
    decode State.reset.cfg 0x00000009 = .instr (.validate 0) := ⟨rfl, rfl, by decide +kernel⟩

theorem witness_ExpandBuildsTheScheduleAndZeroesKey :
    (builtWith .one .url true).cfg.numSlots ≤ 1 ∧
    (3 < State.reset.cfg.numSlots ∧ State.reset.wm.readBytes 0x000 16 = none) ∧
    (0 < (builtWith .one .url true).cfg.numSlots ∧
      ((builtWith .one .url true).writeWm 0 (hx 16 docKey)).wm.readBytes 0x000 16 = some (hx 16 docKey)) := by
  decide +kernel

theorem witness_ClearDestroysTheSchedule :
    State.reset.cfg.numSlots ≤ 4 ∧ 3 < State.reset.cfg.numSlots := by decide

theorem witness_EncryptStoresTheCiphertext :
    noComp.cfg.componentCmds = false ∧ State.reset.cfg.componentCmds = true ∧
    (builtWith .three .url true).cfg.numSlots ≤ 3 ∧ 512 < 497 + 16 ∧ 496 + 16 ≤ 512 ∧ 3 < State.reset.cfg.numSlots ∧
    State.reset.keyv 3 = false ∧
    (keyed 3 docKey State.reset).keyv 3 = true ∧ (keyed 3 docKey State.reset).wm.readBytes 496 16 = none ∧
    ((keyed 3 docKey State.reset).writeWm 496 (hx 16 5)).wm.readBytes 496 16 = some (hx 16 5) := by decide +kernel

/-- Source windows that end at 513 and at 512, unwritten and written, and a group count of 0. -/
theorem witness_B64encStoresTheCharacters :
    noComp.cfg.componentCmds = false ∧ State.reset.cfg.componentCmds = true ∧ 512 < 510 + 3 * 1 ∧ 509 + 3 * 1 ≤ 512 ∧
    508 + 4 * 1 ≤ 512 ∧ State.reset.wm.readBytes 509 (3 * 1) = none ∧
    (State.reset.writeWm 509 (hx 3 7)).wm.readBytes 509 (3 * 1) = some (hx 3 7) ∧ (511 ≤ 511 ∧ 0 = 0) := by
  decide +kernel

theorem witness_B64decStoresTheBytes :
    noComp.cfg.componentCmds = false ∧ State.reset.cfg.componentCmds = true ∧ 512 < 509 + 4 * 1 ∧ 508 + 4 * 1 ≤ 512 ∧
    509 + 3 * 1 ≤ 512 ∧ State.reset.wm.readBytes 508 (4 * 1) = none ∧
    (State.reset.writeWm 508 (hx 4 7)).wm.readBytes 508 (4 * 1) = some (hx 4 7) ∧ (511 ≤ 511 ∧ 0 = 0) := by
  decide +kernel

theorem witness_HexencStoresTheDigits :
    noComp.cfg.componentCmds = false ∧ State.reset.cfg.componentCmds = true ∧ 512 < 511 + 2 * 1 ∧ 511 + 1 ≤ 512 ∧
    510 + 2 * 1 ≤ 512 ∧ State.reset.wm.readBytes 511 1 = none ∧
    (State.reset.writeWm 511 (hx 1 7)).wm.readBytes 511 1 = some (hx 1 7) ∧ (511 ≤ 511 ∧ 0 = 0) := by
  decide +kernel

/-- As above; and a source of digits, and one with a bad character, whose windows fit or not. -/
theorem witness_HexdecStoresTheBytes :
    noComp.cfg.componentCmds = false ∧ State.reset.cfg.componentCmds = true ∧ 512 < 511 + 2 * 1 ∧ 510 + 2 * 1 ≤ 512 ∧
    511 + 1 ≤ 512 ∧ 512 < 510 + 3 ∧ State.reset.wm.readBytes 510 (2 * 1) = none ∧
    ((State.reset.writeWm 510 (ascii "0f")).wm.readBytes 510 (2 * 1) = some (ascii "0f") ∧
      ∀ x ∈ ascii "0f", isHexDigit x = true) ∧
    ((State.reset.writeWm 510 (ascii "0F")).wm.readBytes 510 (2 * 1) = some (ascii "0F") ∧
      (0x46 ∈ ascii "0F" ∧ isHexDigit 0x46 = false)) ∧
    ((noComp.writeWm 510 (ascii "0F")).wm.readBytes 510 (2 * 1) = some (ascii "0F")) ∧ (511 ≤ 511 ∧ 0 = 0) := by
  decide +kernel

/-- The identifier's eight bytes of W2. -/
theorem ready_mintable (answers : List EntropyAnswer) :
    MintReady (mintable answers) 0 docId (hx 8 0x95b6577caeeec081) [0] := by
  have h : MintReady (mintable []) 0 docId (hx 8 0x95b6577caeeec081) [0] := by
    unfold MintReady; decide +kernel
  exact h

theorem witness_MintWritesTheToken :
    State.reset.cfg.numSlots ≤ 4 ∧ State.reset.keyv 3 = false ∧
    ((keyed 3 docKey State.reset).keyv 3 = true ∧ (keyed 3 docKey State.reset).wm.readBytes 0x040 36 = none) ∧
    ((mintable []).keyv 0 = true ∧
      ((mintable []).writeWm 0x053 [0x47]).wm.readBytes 0x040 36 = some (docId.set 19 0x47) ∧
      idExtract (docId.set 19 0x47) = none) ∧
    (((keyed 0 docKey State.reset).writeWm 0x040 docId).wm.readBytes 0x040 36 = some docId ∧
      idExtract docId = some (hx 8 0x95b6577caeeec081) ∧
      ((keyed 0 docKey State.reset).writeWm 0x040 docId).wm.readBytes 0x030 1 = none) := by decide +kernel

/-- The four answers of the source to a MINT whose checks pass. -/
theorem witness_MintWritesTheToken_answers :
    (MintReady (mintable []) 0 docId (hx 8 0x95b6577caeeec081) [0] ∧ (mintable []).entropy = []) ∧
    (MintReady (mintable [.wait]) 0 docId (hx 8 0x95b6577caeeec081) [0] ∧ (mintable [.wait]).entropy = .wait :: []) ∧
    (MintReady (mintable [.fail]) 0 docId (hx 8 0x95b6577caeeec081) [0] ∧ (mintable [.fail]).entropy = .fail :: []) ∧
    (MintReady (mintable [.bytes nonce0]) 0 docId (hx 8 0x95b6577caeeec081) [0] ∧
      (mintable [.bytes nonce0]).entropy = .bytes nonce0 :: []) :=
  ⟨⟨ready_mintable _, rfl⟩, ⟨ready_mintable _, rfl⟩, ⟨ready_mintable _, rfl⟩, ⟨ready_mintable _, rfl⟩⟩

/-- The slot, the key, an unwritten field, and the tag equal or not. -/
theorem witness_ValidateComparesTheTags :
    State.reset.cfg.numSlots ≤ 4 ∧ State.reset.keyv 3 = false ∧
    ((keyed 3 docKey State.reset).keyv 3 = true ∧
      (keyed 3 docKey State.reset).wm.readBytes (0x100 + 57) 24 = none) ∧
    ((holding token1).keyv 0 = true ∧
      (holding token1).wm.readBytes (0x100 + 57) 24 = some (ascii "Ijk1YjY1NzdjYWVlZWMwODEi") ∧
      (holding token1).wm.readBytes (0x100 + 93) 24 = some (ascii "IjAwMDAwMDAwMDAwMDAwMDAi") ∧
      (holding token1).wm.readBytes (0x100 + 134) 44 =
        some (ascii "ImZmZWE1YzQxOGRmODU2M2FiNzJmZWE4ODU1M2UwNWMz")) ∧
    cipherBytes ((holding token1).slot 0).rk (decF .url (ascii "Ijk1YjY1NzdjYWVlZWMwODEi") ++
      decF .url (ascii "IjAwMDAwMDAwMDAwMDAwMDAi")) =
        decT .url (ascii "ImZmZWE1YzQxOGRmODU2M2FiNzJmZWE4ODU1M2UwNWMz") ∧
    cipherBytes ((holding token1).slot 0).rk (decF .url (ascii "Ijk1YjY1NzdjYWVlZWMwODEi") ++
      decF .url (ascii "IjAwMDAwMDAwMDAwMDAwMDAi")) ≠
        decT .url (ascii "IjAwZWE1YzQxOGRmODU2M2FiNzJmZWE4ODU1M2UwNWMz") := by decide +kernel

theorem witness_ErrorsChangeNoByteAndNoSlot :
    ∃ t, exec (.validate 0) (State.reset.writeWm 0x100 [1]) = .next t ∧ decide (t.latched = none ∧ t.err ≠ 0) = true :=
  exists_next (by decide +kernel)

theorem witness_CommandsEndWithTheirCodesOnly :
    ∃ t, exec (.clear 0) (keyed 0 docKey State.reset) = .next t ∧ decide (t.latched = none) = true :=
  exists_next (by decide +kernel)

/-- A byte at each end outside EXPAND's window, and a slot it does not name. -/
theorem witness_CommandsLeaveTheRestAlone :
    (∃ t, exec (.expand 0) (State.reset.writeWm 0 (hx 16 docKey)) = .next t ∧ decide (t.err = 0) = true) ∧
    ¬ inWindow (storeWindow (.expand 0)) 16 ∧ writesSlot (.expand 0) ≠ some 1 ∧ (∀ k, Instr.expand 0 ≠ .mint k) :=
  ⟨exists_next (by decide +kernel), by unfold inWindow; decide, by decide, by simp⟩

/-- Two memories that differ outside what HEXENC reads. -/
theorem witness_CommandsReadTheirWindowsOnly :
    ∀ w ∈ readWindows (.hexenc 511 0 1), ∀ b, inWindow w b →
      (State.reset.writeWm 511 [7]).wm.read b = ((Memory.empty.write 511 7).write 3 9).read b := by
  intro w hw b hb
  simp only [readWindows, List.mem_singleton] at hw
  subst hw
  obtain rfl : b = 511 := by simp only [inWindow] at hb; omega
  decide +kernel

theorem witness_SecondExpandExpandsTheZeroKey :
    ∃ t, exec (.expand 0) (State.reset.writeWm 0 (hx 16 docKey)) = .next t ∧
      decide (t.err = 0 ∧ 3 < State.reset.cfg.numSlots) = true := exists_next (by decide +kernel)

/-- Both ends of the range, and of a round. -/
theorem witness_KeyExpansionFollowsTheWordRecurrence : 4 ≤ 4 ∧ 4 ≤ 43 ∧ 43 ≤ 43 ∧ 4 % 4 = 0 ∧ 43 % 4 ≠ 0 := by decide

theorem witness_SboxIsInverseThenAffine : sbox 0x53 = sbox 0x53 ∧ gfMul 0x53 0xCA = 1 := by decide +kernel

theorem witness_ShiftRowsRotatesTheRows : 0 < 4 ∧ 3 < 4 := by decide

theorem witness_SextetIsTheIndexOrZero :
    0x5F = alphaChar .url 63 ∧ (∀ i : BitVec 6, 0x3D ≠ alphaChar .url i) := by decide +kernel

theorem witness_CodecFunctionsObeyTheirLaws :
    (hx 3 7).length % 3 = 0 ∧ (ascii "TW=u").length % 4 = 0 ∧ (ascii "0F").length % 2 = 0 ∧
    b64Enc .url (hx 3 7) = b64Enc .url (hx 3 7) ∧ hexEnc (hx 1 7) = hexEnc (hx 1 7) := by decide +kernel

/-- Two identifiers that differ at characters 18 and 23 only, and one with a bad character at 35. -/
theorem witness_IdExtractExaminesSixteenCharacters :
    docId.length = 36 ∧ idExtract docId = some (hx 8 0x95b6577caeeec081) ∧
    ((docId.set 18 0x21).set 23 0x21).length = 36 ∧
    (∀ i ∈ [19, 20, 21, 22, 24, 25, 26, 27, 28, 29, 30, 31, 32, 33, 34, 35],
      docId[i]? = ((docId.set 18 0x21).set 23 0x21)[i]?) ∧
    (docId.set 35 0x47)[35]? = some 0x47 ∧ isHexDigit 0x47 = false ∧ idExtract (docId.set 35 0x47) = none := by
  decide +kernel

theorem witness_TokenImageIsTheThreeSegments :
    (hx 8 0x95b6577caeeec081).length = 8 ∧ (hx 8 0).length = 8 ∧ (hx 16 1).length = 16 ∧
    (∀ i ∈ [56, 81, 92, 117, 133, 178], ¬ (57 ≤ i ∧ i < 81) ∧ ¬ (93 ≤ i ∧ i < 117) ∧ ¬ (134 ≤ i ∧ i < 178)) := by
  decide

/-- A MINT that succeeds; the state after it is one that has kept everything. -/
theorem witness_MintedTokenValidates :
    ∃ t, exec (.mint 0) (mintable [.bytes nonce1]) = .next t ∧ t.latched = none ∧ t.err = 0 ∧
      t.cfg = t.cfg ∧ t.slot 0 = t.slot 0 ∧ (∀ b, 0x100 ≤ b → b < 0x100 + 179 → t.wm.read b = t.wm.read b) := by
  obtain ⟨t, h, hp⟩ := exists_next (r := exec (.mint 0) (mintable [.bytes nonce1]))
    (p := fun t => decide (t.latched = none) && decide (t.err = 0)) (by decide +kernel)
  rw [Bool.and_eq_true, decide_eq_true_eq, decide_eq_true_eq] at hp
  exact ⟨t, h, hp.1, hp.2, rfl, rfl, fun _ _ _ => rfl⟩

/-- Two MINTs of one pair with different nonces. -/
theorem witness_MintsOfOnePairDifferByNonceAlone :
    MintReady (mintable [.bytes nonce0]) 0 docId (hx 8 0x95b6577caeeec081) [0] ∧
    MintReady (mintable [.bytes nonce1]) 0 docId (hx 8 0x95b6577caeeec081) [0] ∧
    (mintable [.bytes nonce0]).slot 0 = (mintable [.bytes nonce1]).slot 0 ∧
    (mintable [.bytes nonce0]).cfg.alphabet = (mintable [.bytes nonce1]).cfg.alphabet ∧
    (mintable [.bytes nonce0]).entropy = .bytes nonce0 :: [] ∧
    (mintable [.bytes nonce1]).entropy = .bytes nonce1 :: [] ∧
    (∃ t, exec (.mint 0) (mintable [.bytes nonce0]) = .next t ∧ decide (t.latched = none) = true) ∧
    (∃ t, exec (.mint 0) (mintable [.bytes nonce1]) = .next t ∧ decide (t.latched = none) = true) ∧
    nonce0 ≠ nonce1 :=
  ⟨ready_mintable _, ready_mintable _, rfl, rfl, rfl, rfl, exists_next (by decide +kernel),
    exists_next (by decide +kernel), by decide⟩

/-- The token of V-MINT-1; the same with another header byte; and the same with the tag of V-VAL-3. -/
theorem witness_DecodedFieldsDecideModifiedTokens :
    0 < (holding token1).cfg.numSlots ∧ (holding token1).keyv 0 = true ∧
    (holding token1).wm.readBytes 0x100 179 = some token1 ∧
    (Memory.empty.writeBytes 0x100 (token1.set 0 0)).readBytes 0x100 179 = some (token1.set 0 0) ∧
    (∃ t, exec (.validate 0) (holding token1) = .next t ∧
      decide (t = { holding token1 with latched := none, result := true, err := 0 }) = true) ∧
    decodeToken .url (token1.set 0 0) = decodeToken .url token1 ∧
    ((decodeToken .url (overwrite token1 134 (ascii "IjAwZWE1"))).1 = (decodeToken .url token1).1 ∧
      (decodeToken .url (overwrite token1 134 (ascii "IjAwZWE1"))).2.1 = (decodeToken .url token1).2.1 ∧
      (decodeToken .url (overwrite token1 134 (ascii "IjAwZWE1"))).2.2 ≠ (decodeToken .url token1).2.2) :=
  ⟨by decide, by decide +kernel, by decide +kernel, Memory.readBytes_writeBytes (token1.set 0 0) _ _,
    exists_next (by decide +kernel), by decide +kernel, by decide +kernel⟩

theorem witness_HeldMintWaitsUnchanged :
    MintReady (held [.wait]) 0 docId (hx 8 0x95b6577caeeec081) [0] ∧ (held [.wait]).latched = some (.mint 0) ∧
    (held [.wait]).result = false ∧ (held []).entropy = [] ∧ (held [.wait]).entropy = .wait :: [] ∧
    (doing (held []) [.coreTurn]).events = .coreTurn :: [] ∧ (doing (held []) [.reset]).events = .reset :: [] :=
  ⟨ready_mintable [.wait], rfl, rfl, rfl, rfl, rfl, rfl⟩

theorem witness_MintOutlastsAnyNumberOfWaits :
    MintReady (held [.wait, .wait, .bytes nonce0]) 0 docId (hx 8 0x95b6577caeeec081) [0] ∧
    (held [.wait, .wait, .bytes nonce0]).latched = some (.mint 0) ∧
    (held [.wait, .wait, .bytes nonce0]).result = false ∧ (held [.wait, .wait, .bytes nonce0]).events = [] ∧
    (held [.wait, .wait, .bytes nonce0]).entropy = List.replicate 2 .wait ++ .bytes nonce0 :: [] :=
  ⟨ready_mintable [.wait, .wait, .bytes nonce0], rfl, rfl, rfl, rfl⟩

theorem witness_WaitReadsStatusUntilIdle :
    ((doing State.reset [.waitIdle]).events = .waitIdle :: [] ∧ (doing State.reset [.waitIdle]).latched = none) ∧
    ((doing (held []) [.waitIdle]).events = .waitIdle :: [] ∧ (doing (held []) [.waitIdle]).latched ≠ none) :=
  ⟨⟨rfl, rfl⟩, rfl, by simp [doing, held]⟩

/-- A misaligned word, a half word, another width, and a byte at each end of the registers. -/
theorem witness_UnsupportedAccessesAreRefused :
    (doing State.reset [rd8 0x200]).events = .access (.read .byte 0x200) :: [] ∧
    (0x3FD : Offset).toNat % 4 ≠ 0 ∧ (0x200 ≤ (0x200 : Offset).toNat ∧ (0x20B : Offset).toNat < 0x20C) :=
  ⟨rfl, by decide, by decide⟩

/-- A byte at each end of WM and of the reserved offsets, and the last word. -/
theorem witness_SupportedAccessesAreAccepted :
    (doing State.reset [rd8 0x1FF]).events = .access (.read .byte 0x1FF) :: [] ∧
    (doing State.reset [rd8 0x1FF]).latched = none ∧ (0x1FF : Offset).toNat < 0x200 ∧
    0x20C ≤ (0x20C : Offset).toNat ∧ (0x3FC : Offset).toNat % 4 = 0 := ⟨rfl, rfl, by decide, by decide, by decide⟩

theorem witness_BusyBlockRefusesOtherAccesses :
    (doing (held []) [wr8 0x040 0]).events = .access (.write .byte 0x040 0) :: [] ∧
    (doing (held []) [wr8 0x040 0]).latched ≠ none ∧ (Access.write .byte 0x040 0).supported = true ∧
    (Access.read .word 0x204).supported = true ∧ (Access.read .word 0x208).supported = true :=
  ⟨rfl, by simp [doing, held], by decide, by decide, by decide⟩

theorem witness_HostAccessesHaveTheirSideEffectsOnly :
    (doing State.reset [rd32 0x204]).latched = none ∧
    (doing State.reset [rd32 0x204]).events = .access (.read .word 0x204) :: [] ∧
    (∃ t, step (doing State.reset [rd32 0x204]) = .next t ∧ decide (t.readout = some 0) = true) ∧
    (doing State.reset [wr32 0x200 1]).events = .access (.write .word 0x200 1) :: [] ∧ (0x200 : Offset).toNat = 0x200 ∧
    (0x1FC : Offset).toNat < 0x200 ∧ 0x200 < (0x204 : Offset).toNat :=
  ⟨rfl, rfl, exists_next (by decide +kernel), rfl, by decide, by decide, by decide⟩

theorem witness_WordAccessesToWmAreLittleEndian :
    (doing State.reset [wr32 0x1FC 1]).events = .access (.write .word 0x1FC 1) :: [] ∧
    (doing State.reset [wr32 0x1FC 1]).latched = none ∧ (0x1FC : Offset).toNat < 0x200 ∧
    (0x1FC : Offset).toNat % 4 = 0 ∧
    (State.reset.writeWm 0x1FC [1, 2, 3, 4]).wm.readBytes (0x1FC : Offset).toNat 4 = some [1, 2, 3, 4] ∧
    (State.reset.writeWm 0x1FC [1, 2, 3, 4]).wm.read (0x1FF : Offset).toNat = some 4 :=
  ⟨rfl, rfl, by decide, by decide, by decide +kernel, by decide +kernel⟩

theorem witness_UnwrittenHostReadsFault :
    (doing State.reset [rd8 0x1FF]).latched = none ∧ (0x1FF : Offset).toNat < 0x200 ∧
    State.reset.wm.read (0x1FF : Offset).toNat = none ∧ (0x1FC : Offset).toNat % 4 = 0 ∧
    State.reset.wm.readBytes (0x1FC : Offset).toNat 4 = none ∧
    (State.reset.writeWm 0x1FC [1, 2, 3]).wm.readBytes (0x1FC : Offset).toNat 4 = none := by decide +kernel

theorem witness_StatusReadsItsFields :
    (doing (held []) [rd32 0x204]).events = rd32 0x204 :: [] ∧
    (doing State.reset [wr32 0x204 7]).latched = none ∧
    (doing State.reset [wr32 0x204 7]).events = wr32 0x204 7 :: [] := ⟨rfl, rfl, rfl⟩

theorem witness_InfoReadsTheParameters :
    (doing (held []) [rd32 0x208]).events = rd32 0x208 :: [] ∧
    (doing State.reset [wr32 0x208 7]).latched = none ∧
    (doing State.reset [wr32 0x208 7]).events = wr32 0x208 7 :: [] ∧
    (∃ t, step (doing State.reset [wr32 0x208 7]) = .next t ∧ decide (t.events = []) = true) :=
  ⟨rfl, rfl, rfl, exists_next (by decide +kernel)⟩

theorem witness_ReservedOffsetsReadZero :
    (doing State.reset [rd32 0x200]).latched = none ∧ (doing State.reset [rd32 0x200]).events = rd32 0x200 :: [] ∧
    0x20C ≤ (0x20C : Offset).toNat ∧ 0x20C ≤ (0x3FF : Offset).toNat ∧ (0x3FC : Offset).toNat % 4 = 0 ∧
    (doing State.reset [wr8 0x3FF 1]).events = .access (.write .byte 0x3FF 1) :: [] :=
  ⟨rfl, rfl, by decide, by decide, by decide, rfl⟩

/-- The two contents that reset gives WM, at its last byte. -/
theorem witness_ResetLeavesTheStatedValues :
    Config.default.wmReset = .unwritten ∧ (⟨.four, .url, true, .zero⟩ : Config).wmReset = .zero ∧ 511 < 512 ∧
    0x20C ≤ (0x20C : Offset).toNat ∧ (0x200 : Offset).toNat = 0x200 := by decide

theorem witness_ResetEventRestoresTheResetValues :
    (doing (held []) [.reset]).events = .reset :: [] ∧ (doing (held []) [.reset]).cfg.wmReset = .unwritten ∧
    (doing (State.resetOf ⟨.four, .url, true, .zero⟩) [.reset]).cfg.wmReset = .zero ∧
    (doing (State.resetOf ⟨.four, .url, true, .keep⟩) [.reset]).cfg.wmReset = .keep ∧
    ∃ t u, step (doing (held []) [.reset, .entropyAnswer 0 (.bytes nonce1)]) = .next t ∧ runSteps 0 t = .next u ∧
      u.events = .entropyAnswer 0 (.bytes nonce1) :: [] ∧
      0 ≤ (doing (held []) [.reset, .entropyAnswer 0 (.bytes nonce1)]).request :=
  ⟨rfl, rfl, rfl, rfl, _, _, rfl, rfl, rfl, Nat.le_refl 0⟩

/-- A MINT held again after a reset, and an answer to the request that the reset withdrew. -/
def heldAgain : State := { held [] with request := 1, events := [.entropyAnswer 0 (.bytes nonce1)] }

theorem witness_EntropyAnswersReachTheirRequestOnly :
    ((doing State.reset [.entropyAnswer 0 .wait]).events = .entropyAnswer 0 .wait :: [] ∧
      (doing State.reset [.entropyAnswer 0 .wait]).latched = none) ∧
    (heldAgain.events = .entropyAnswer 0 (.bytes nonce1) :: [] ∧ 0 ≠ heldAgain.request) ∧
    ((doing (held []) [.entropyAnswer 0 .fail]).events = .entropyAnswer 0 .fail :: [] ∧
      MintReady (doing (held []) [.entropyAnswer 0 .fail]) 0 docId (hx 8 0x95b6577caeeec081) [0] ∧
      (doing (held []) [.entropyAnswer 0 .fail]).latched = some (.mint 0) ∧
      0 = (doing (held []) [.entropyAnswer 0 .fail]).request ∧ EntropyAnswer.fail ≠ .wait) :=
  ⟨⟨rfl, rfl⟩, ⟨rfl, by decide⟩, rfl, ready_mintable [], rfl, rfl, by decide⟩

/-- A keyed block with a MINT held meets the invariant. -/
theorem inv_held (answers : List EntropyAnswer) (e : List Event) : (doing (held answers) e).Inv := by
  have hs : ∀ k, (doing (held answers) e).slot k =
      if k = 0 then expandedSlot (Block.ofBytes (hx 16 docKey)) else KeySlot.empty := by
    intro k
    have h : (doing (held answers) e).slot k = (keyed 0 docKey State.reset).slot k := rfl
    rw [h, keyed, slot_setSlot]
    have h0 : State.reset.slot k = .empty := by
      by_cases hk : k < 4
      · rw [slot_lt _ hk]; interval_cases k <;> rfl
      · rw [slot_ge _ (by omega)]
    by_cases hk : k = 0
    · simp [hk]
    · simp [hk, h0]
  have h0 : ∀ k, k ≠ 0 → (doing (held answers) e).slot k = KeySlot.empty := fun k hk => by rw [hs, if_neg hk]
  have hv : ((doing (held answers) e).slot 0).valid = true := by rw [hs]; rfl
  refine ⟨?_, ?_, ?_, ?_, ?_, ?_, ?_⟩
  · have h : (mintable []).wm.wf = true := by decide +kernel
    exact h
  · intro k hk
    have : (doing (held answers) e).cfg.numSlots = 4 := rfl
    exact h0 k (by omega)
  · intro k hk
    by_cases h : k = 0
    · subst h; rw [hv] at hk; exact (Bool.false_ne_true hk.symm).elim
    · exact h0 k h
  · intro k hk
    by_cases h : k = 0
    · subst h
      have : ((mintable []).slot 0).rk = keyExpansion (((mintable []).slot 0).rk[0]) := by decide +kernel
      exact this
    · rw [h0 k h] at hk; exact (Bool.false_ne_true hk).elim
  · have h : (mintable []).err ∈ writtenCodes := by decide
    exact h
  · intro h; exact (Bool.false_ne_true h).elim
  · intro i hi
    have : i = .mint 0 := (Option.some.inj hi).symm
    exact ⟨rfl, 0, docId, hx 8 0x95b6577caeeec081, [0], this, ready_mintable answers⟩

/-- A held MINT that gets its answer, from a state that meets the invariant. -/
theorem witness_EveryStepKeepsTheInvariant :
    (doing (held [.bytes nonce1]) [.coreTurn]).Inv ∧
    ∃ t, step (doing (held [.bytes nonce1]) [.coreTurn]) = .next t ∧ decide (t.latched = none) = true :=
  ⟨inv_held _ _, exists_next (by decide +kernel)⟩

/-- Reset empties a keyed slot, from a state that meets the invariant. -/
theorem witness_SlotsChangeByExpandClearOrResetOnly :
    (doing (held []) [.reset]).Inv ∧ ∃ t, step (doing (held []) [.reset]) = .next t ∧
      decide (t.slot 0 ≠ (doing (held []) [.reset]).slot 0) = true := ⟨inv_held _ _, exists_next (by decide +kernel)⟩

/-- Two blocks with different keys in slot 0, about to run EXPAND s1. -/
theorem witness_RoundKeysAreHidden :
    SameButRoundKeys (doing (keyed 0 1 State.reset) [wr32 0x200 0x00000011])
      (doing (keyed 0 2 State.reset) [wr32 0x200 0x00000011]) ∧
    (doing (keyed 0 1 State.reset) [wr32 0x200 0x00000011]).latched = none ∧
    decode State.reset.cfg 0x00000011 = .instr (.expand 1) ∧ usesRoundKeys (.expand 1) = false := by
  refine ⟨⟨rfl, ?_⟩, rfl, by decide +kernel, rfl⟩
  intro k
  have h : ∀ v, (doing (keyed 0 v State.reset) [wr32 0x200 0x00000011]).slot k = (keyed 0 v State.reset).slot k :=
    fun _ => rfl
  rw [h, h, keyed, keyed, slot_setSlot, slot_setSlot]
  split <;> rfl

end Sys2Proof.Tests
end

section
/-! PROOFS. The family 10_state.md: what a command and a step can do, said once as an effect; the invariant of the
state; what the round keys reach; the registers; and the statements of the family, settled from these. -/

namespace Sys2Proof.Machine

/-! ## What a command can do -/

/-- Every next state a command can answer: it raises an error, stores, writes its slot, gives its verdict, or, for a
MINT, is held or has had its answer (20_memory.md R59, 60_exceptions.md R221 to R223, R236 to R238). -/
inductive ExecEffect (i : Instr) (s : State) : State → Prop where
  | raised (e : ErrCode) (he : e ∈ possibleCodes i) : ExecEffect i s (s.finish e false)
  | stored (a : Nat) (vs : List Byte) (hw : storeWindow i = (a, vs.length)) (hfit : a + vs.length ≤ wmBytes) :
      ExecEffect i s ((s.writeWm a vs).finish .ok false)
  | expanded (k : Nat) (key : List Byte) (hi : i = .expand k) (hk : k < s.cfg.numSlots)
      (hkey : s.wm.readBytes keyAddr keyLen = some key) :
      ExecEffect i s (((s.setSlot k (expandedSlot (Block.ofBytes key))).writeWm keyAddr
        (List.replicate keyLen 0)).finish .ok false)
  | cleared (k : Nat) (hi : i = .clear k) (hk : k < s.cfg.numSlots) :
      ExecEffect i s ((s.setSlot k .empty).finish .ok false)
  | judged (k : Nat) (ok : Bool) (hi : i = .validate k) : ExecEffect i s (s.verdict ok)
  | held (k : Nat) (ident id8 cap : List Byte) (answers : List EntropyAnswer) (hi : i = .mint k)
      (hr : MintReady s k ident id8 cap) : ExecEffect i s (State.hold { s with entropy := answers } i)
  | unanswered (k : Nat) (answers : List EntropyAnswer) (hi : i = .mint k) :
      ExecEffect i s ((s.requestAnswered answers).finish .insufficientRandomness false)
  | minted (k : Nat) (tok : List Byte) (answers : List EntropyAnswer) (hi : i = .mint k) (hl : tok.length = tokLen) :
      ExecEffect i s (((s.requestAnswered answers).writeWm tokAddr tok).finish .ok false)

section
variable {s t : State} {i : Instr}

/-- A codec command whose conversion has the length its window has. -/
theorem codec_effect {src inLen dst outLen : Nat} {f : List Byte → Option (List Byte)}
    (hw : storeWindow i = (dst, outLen)) (hcodes : [.illegalCommand, .rangeError] ⊆ possibleCodes i)
    (hlen : ∀ xs ys, xs.length = inLen → f xs = some ys → ys.length = outLen)
    (hbad : ∀ xs, f xs = none → .malformedIdentifier ∈ possibleCodes i)
    (h : s.requireComponent (s.transform src inLen dst outLen f) = .next t) : ExecEffect i s t := by
  rcases codec_next h with ⟨e, he, rfl⟩ | ⟨xs, -, hf, rfl⟩ | ⟨-, hfit, xs, ys, hx, hf, rfl⟩
  · exact .raised e (hcodes he)
  · exact .raised _ (hbad xs hf)
  · have hy := hlen xs ys (Memory.length_readBytes hx) hf
    exact .stored dst ys (by rw [hw, hy]) (by rw [hy]; exact hfit)

/-- A codec command that never fails on data. -/
theorem codec_total_effect {src inLen dst outLen : Nat} {g : List Byte → List Byte}
    (hw : storeWindow i = (dst, outLen)) (hcodes : [.illegalCommand, .rangeError] ⊆ possibleCodes i)
    (hlen : ∀ xs, xs.length = inLen → (g xs).length = outLen)
    (h : s.requireComponent (s.transform src inLen dst outLen fun xs => some (g xs)) = .next t) :
    ExecEffect i s t :=
  codec_effect hw hcodes (fun xs _ hx hf => Option.some.inj hf ▸ hlen xs hx)
    (fun _ hf => (Option.some_ne_none _ hf).elim) h

/-- A MINT whose checks pass is held, has no entropy, or stores a token of TOKEN_LEN bytes. -/
theorem mintRequest_effect {k : Nat} {ident id8 cap : List Byte} {rk : RoundKeys} (hr : MintReady s k ident id8 cap)
    (h : s.requestEntropy (.mint k) (fun s' nonce => .next (mintToken rk id8 cap s' nonce)) = .next t) :
    ExecEffect (.mint k) s t := by
  have ⟨_, _, hident, hid8, hcap⟩ := hr
  rcases requestEntropy_next.1 h with ⟨-, rfl⟩ | ⟨answers, -, rfl⟩ | ⟨answers, -, rfl⟩ | ⟨nonce, answers, -, h⟩
  · exact .held k ident id8 cap s.entropy rfl hr
  · exact .held k ident id8 cap answers rfl hr
  · exact .unanswered k answers rfl
  · cases h
    have h8 : id8.length = 8 := length_idExtract (Memory.length_readBytes hident) hid8
    have h1 : cap.length = 1 := Memory.length_readBytes hcap
    exact .minted k _ answers rfl
      (length_tokenImage _ h8 (by simp [h1, Nonce.toBytes]) (length_cipherBytes _ _))

theorem execMint_effect {k : Nat} (h : execMint k s = .next t) : ExecEffect (.mint k) s t := by
  rcases execMint_next h with ⟨e, he, rfl⟩ | ⟨hk, hv, ident, id8, cap, hident, hid8, hcap, h⟩
  · exact .raised e ((show [ErrCode.badSlot, .keyNotValid, .malformedIdentifier] ⊆ _ by simp [possibleCodes]) he)
  · exact mintRequest_effect ⟨hk, hv, hident, hid8, hcap⟩ h

/-- Every command answers a next state by one of these effects. -/
theorem exec_effect (h : exec i s = .next t) : ExecEffect i s t := by
  cases i with
  | expand k =>
    rcases execExpand_next.1 h with ⟨hk, key, hkey, rfl⟩ | ⟨-, rfl⟩
    · exact .expanded k key rfl hk hkey
    · exact .raised .badSlot (by simp [possibleCodes])
  | clear k =>
    rcases execClear_next.1 h with ⟨hk, rfl⟩ | ⟨-, rfl⟩
    · exact .cleared k rfl hk
    · exact .raised .badSlot (by simp [possibleCodes])
  | encrypt k src dst =>
    rcases execEncrypt_next h with ⟨e, he, rfl⟩ | ⟨-, hfit, p, -, rfl⟩
    · exact .raised e ((show [ErrCode.illegalCommand, .badSlot, .rangeError, .keyNotValid] ⊆ _ by simp [possibleCodes]) he)
    · exact .stored dst _ rfl hfit
  | b64enc src dst n =>
    exact codec_total_effect (g := b64Enc s.cfg.alphabet) rfl (by simp [possibleCodes])
      (fun xs hx => by rw [length_b64Enc]; omega) h
  | b64dec src dst n =>
    exact codec_total_effect (g := b64Dec s.cfg.alphabet) rfl (by simp [possibleCodes])
      (fun xs hx => by rw [length_b64Dec]; omega) h
  | hexenc src dst n =>
    exact codec_total_effect (g := hexEnc) rfl (by simp [possibleCodes]) (fun xs hx => by rw [length_hexEnc, hx]) h
  | hexdec strict src dst n =>
    cases strict with
    | true =>
      refine codec_effect (f := hexDecS) rfl (by simp [possibleCodes]) ?_ (fun _ _ => by simp [possibleCodes]) h
      intro xs ys hx hf
      obtain ⟨-, rfl⟩ := hexDecS_eq_some.1 hf
      rw [length_hexDecT]; omega
    | false =>
      exact codec_total_effect (g := hexDecT) rfl (by simp [possibleCodes])
        (fun xs hx => by rw [length_hexDecT]; omega) h
  | mint k => exact execMint_effect h
  | validate k =>
    rcases execValidate_next h with ⟨e, he, rfl⟩ | ⟨-, -, sub, jti, tag, -, -, -, rfl⟩
    · exact .raised e ((show [ErrCode.badSlot, .keyNotValid] ⊆ _ by simp [possibleCodes]) he)
    · exact .judged k _ rfl

/-- No command changes the build parameters. -/
theorem ExecEffect.cfg_eq (h : ExecEffect i s t) : t.cfg = s.cfg := by
  cases h with
  | judged k ok hi => rw [verdict_eq, cfg_finish]
  | held k ident id8 cap answers hi hr => rfl
  | _ => simp only [cfg_finish, cfg_writeWm, cfg_setSlot, cfg_requestAnswered]

end

/-! ## What a step can do -/

/-- Every next state a step can answer. -/
inductive StepEffect (s : State) : State → Prop where
  /-- The moves left and the value last read are all that may change. -/
  | quiet (events : List Event) (readout : Option Word) :
      StepEffect s { s with events := events, readout := readout }
  /-- The host stores into WM. -/
  | hostStored (events : List Event) (a : Nat) (vs : List Byte) (hl : s.latched = none)
      (hfit : a + vs.length ≤ wmBytes) : StepEffect s (State.writeWm { s with events := events } a vs)
  /-- The host writes an illegal word to CMD. -/
  | illegal (w : Word) (rest : List Event) (hl : s.latched = none) (he : s.events = wr32 cmdOffset w :: rest) :
      StepEffect s (State.finish { s with events := rest } .illegalCommand false)
  /-- The host writes a command to CMD. -/
  | command (w : Word) (i : Instr) (rest : List Event) (t : State) (hl : s.latched = none)
      (he : s.events = wr32 cmdOffset w :: rest) (hd : decode s.cfg w = .instr i)
      (hx : exec i { s with events := rest } = .next t) : StepEffect s t
  /-- A held command goes on. -/
  | resumed (i : Instr) (events : List Event) (answers : List EntropyAnswer) (t : State) (hl : s.latched = some i)
      (hx : exec i { s with events := events, entropy := answers } = .next t) : StepEffect s t
  | reset (rest : List Event) (he : s.events = .reset :: rest) :
      StepEffect s (State.applyReset { s with events := rest })

section
variable {s t : State} {rest : List Event}

/-! ### Accesses to an idle block -/

/-- An idle block makes every supported read. -/
theorem hostAccess_read_idle {w : Width} {off : Offset} (hl : s.latched = none) : s.hostAccess (.read w off) =
    if widthSupported w off then s.hostRead w off else .refused (.unsupportedAccess (.read w off)) := by
  cases hs : widthSupported w off <;> simp [State.hostAccess, Access.supported, hs, State.busy, hl]

/-- An idle block makes every supported write. -/
theorem hostAccess_write_idle {w : Width} {off : Offset} {v : Word} (hl : s.latched = none) :
    s.hostAccess (.write w off v) =
      if widthSupported w off then s.hostWrite w off v else .refused (.unsupportedAccess (.write w off v)) := by
  cases hs : widthSupported w off <;> simp [State.hostAccess, Access.supported, hs, State.busy, hl]

/-- A busy block makes no write. -/
theorem hostAccess_write_busy {w : Width} {off : Offset} {v : Word} {i : Instr} (hl : s.latched = some i) :
    s.hostAccess (.write w off v) ≠ .next t := by
  cases hs : widthSupported w off <;>
    simp [State.hostAccess, Access.supported, hs, State.busy, hl, Access.allowedWhileBusy]

/-- CMD takes 32-bit accesses only (20_memory.md R54). -/
theorem eq_word_of_widthSupported_cmd {w : Width} (h : widthSupported w cmdOffset = true) : w = .word := by
  revert h
  cases w <;> decide

/-- A supported access to WM stays inside it. -/
theorem fits_of_widthSupported {w : Width} {off : Offset} (h : widthSupported w off = true)
    (hoff : off.toNat < 0x200) : off.toNat + w.bytes ≤ wmBytes := by
  have hwm : wmBytes = 512 := rfl
  cases w with
  | byte => simp only [Width.bytes]; omega
  | half => exact (Bool.false_ne_true h).elim
  | word =>
    have h4 : off.toNat % 4 = 0 := beq_iff_eq.1 h
    simp only [Width.bytes]; omega
  | other => exact (Bool.false_ne_true h).elim

/-- A host read changes nothing but the value read. -/
theorem hostRead_next {w : Width} {off : Offset} (h : s.hostRead w off = .next t) : ∃ v, t = s.deliver v := by
  by_cases hoff : off.toNat < 0x200
  · rw [hostRead_wm hoff, withBytes_next] at h
    obtain ⟨vs, -, h⟩ := h
    exact ⟨_, (Host.Outcome.next.inj h).symm⟩
  · rw [hostRead_register (by omega)] at h
    exact ⟨_, (Host.Outcome.next.inj h).symm⟩

theorem hostAccess_read_next {w : Width} {off : Offset} (h : s.hostAccess (.read w off) = .next t) :
    ∃ v, t = s.deliver v := by
  simp only [State.hostAccess] at h
  split at h
  · cases h
  · split at h
    · cases h
    · exact hostRead_next h

/-! ### Every step -/

/-- What a supported host write of an idle block can do. -/
theorem write_effect {w : Width} {off : Offset} {v : Word} (he : s.events = .access (.write w off v) :: rest)
    (hl : s.latched = none) (hs : widthSupported w off = true)
    (h : State.hostWrite { s with events := rest } w off v = .next t) : StepEffect s t := by
  rcases Nat.lt_trichotomy off.toNat 0x200 with hoff | hoff | hoff
  · rw [hostWrite_wm hoff] at h
    cases h
    exact .hostStored rest _ _ hl (by rw [length_leBytes]; exact fits_of_widthSupported hs hoff)
  · obtain rfl : off = cmdOffset := (offset_eq_iff off).1.2 hoff
    obtain rfl := eq_word_of_widthSupported_cmd hs
    rw [hostWrite_cmd hoff, State.runCommand] at h
    split at h
    case h_1 i hd => exact .command v i rest t hl he hd h
    case h_2 =>
      obtain rfl := raise_next.1 h
      exact .illegal v rest hl he
  · rw [hostWrite_elsewhere hoff] at h
    cases h
    exact .quiet rest s.readout

theorem access_effect {a : Access} (he : s.events = .access a :: rest)
    (h : State.hostAccess { s with events := rest } a = .next t) : StepEffect s t := by
  cases a with
  | read w off =>
    obtain ⟨v, rfl⟩ := hostAccess_read_next h
    exact .quiet rest (some v)
  | write w off v =>
    cases hl : s.latched with
    | some i => exact (hostAccess_write_busy (s := { s with events := rest }) hl h).elim
    | none =>
      rw [hostAccess_write_idle (s := { s with events := rest }) hl] at h
      split at h
      case isTrue hs => exact write_effect he hl hs h
      case isFalse => cases h

/-- The core's turn, with `events` left. -/
theorem coreTurn_effect {events : List Event} (h : State.coreTurn { s with events := events } = .next t) :
    StepEffect s t := by
  cases hl : s.latched with
  | none =>
    rw [coreTurn_idle (s := { s with events := events }) hl] at h
    cases h
    exact .quiet events s.readout
  | some i =>
    rw [coreTurn_held (s := { s with events := events }) hl] at h
    exact .resumed i events s.entropy t hl h

theorem answer_effect {n : Nat} {a : EntropyAnswer} (h : State.answerArrives { s with events := rest } n a = .next t) :
    StepEffect s t := by
  by_cases htake : s.latched = none ∨ n ≠ s.request
  · rw [answerArrives_ignored (s := { s with events := rest }) htake] at h
    cases h
    exact .quiet rest s.readout
  · obtain ⟨hbusy, hn⟩ := not_or.1 htake
    obtain ⟨i, hl⟩ := Option.ne_none_iff_exists'.1 hbusy
    rw [answerArrives_taken (s := { s with events := rest }) hl (not_not.1 hn)] at h
    exact .resumed i rest _ t hl h

theorem wait_effect (h : State.hostWait { s with events := rest } = .next t) : StepEffect s t := by
  simp only [State.hostWait] at h
  split at h <;> cases h <;> exact .quiet _ _

/-- Every step answers a next state by one of these effects. -/
theorem step_effect (h : step s = .next t) : StepEffect s t := by
  cases he : s.events with
  | nil => exact coreTurn_effect ((step_nil he).symm.trans h)
  | cons e rest =>
    rw [step_cons he] at h
    cases e with
    | access a => exact access_effect he h
    | waitIdle => exact wait_effect h
    | coreTurn => exact coreTurn_effect h
    | entropyAnswer n a => exact answer_effect h
    | reset =>
      cases h
      exact .reset rest he

/-- No step changes the build parameters (10_state.md R32). -/
theorem step_cfg (h : step s = .next t) : t.cfg = s.cfg := by
  cases step_effect h with
  | command w i rest t hl he hd hx => exact (exec_effect hx).cfg_eq
  | resumed i events answers t hl hx => exact (exec_effect hx).cfg_eq
  | _ => rfl

end

/-! ## The invariant -/

/-- What the invariant says of one slot: without KEYV it is empty, with KEYV it holds the schedule of its round key 0
(10_state.md R33, 40_key_schedule.md R106). -/
structure KeySlot.Sound (x : KeySlot) : Prop where
  empty_of_invalid : x.valid = false → x = KeySlot.empty
  expanded_of_valid : x.valid = true → x.rk = keyExpansion x.rk[0]

theorem KeySlot.sound_empty : KeySlot.empty.Sound := ⟨fun _ => rfl, fun h => (Bool.false_ne_true h).elim⟩

theorem KeySlot.sound_expandedSlot (k : Block) : (expandedSlot k).Sound :=
  ⟨fun h => (Bool.false_ne_true h.symm).elim, fun _ => rfl⟩

/-- The part of the invariant that speaks of WM and the slots, which every update of the flags keeps. -/
structure State.StoresInv (s : State) : Prop where
  wmWf : s.wm.wf = true
  absentEmpty : ∀ k, s.cfg.numSlots ≤ k → s.slot k = KeySlot.empty
  sound : ∀ k, (s.slot k).Sound

section
variable {s t : State} {i : Instr}

theorem State.Inv.stores (h : s.Inv) : s.StoresInv :=
  ⟨h.wmWf, h.absentEmpty, fun k => ⟨h.invalidEmpty k, h.validExpanded k⟩⟩

/-- The one code that is reserved is the one that is never written (60_exceptions.md R230). -/
theorem code_mem_writtenCodes {e : ErrCode} (h : e ≠ .hardwareUnsupported) : e.code ∈ writtenCodes := by
  revert h
  cases e <;> decide

theorem zero_mem_writtenCodes : 0 ∈ writtenCodes := by decide

/-- HardwareUnsupported ends no command (60_exceptions.md R221). -/
theorem ne_hardwareUnsupported_of_possible {e : ErrCode} (h : e ∈ possibleCodes i) : e ≠ .hardwareUnsupported := by
  rintro rfl
  cases i with
  | hexdec strict src dst n => cases strict <;> simp [possibleCodes] at h
  | _ => simp [possibleCodes] at h

/-! ### What keeps the stores -/

theorem State.StoresInv.writeWm (h : s.StoresInv) {a : Nat} {vs : List Byte} (hfit : a + vs.length ≤ wmBytes) :
    (s.writeWm a vs).StoresInv :=
  ⟨Memory.wf_writeBytes hfit h.wmWf, h.absentEmpty, h.sound⟩

/-- A present slot may take any sound contents. -/
theorem State.StoresInv.setSlot (h : s.StoresInv) {k : Nat} {x : KeySlot} (hk : k < s.cfg.numSlots) (hx : x.Sound) :
    (s.setSlot k x).StoresInv where
  wmWf := h.wmWf
  absentEmpty j hj := by
    have hjk : j ≠ k := by rw [cfg_setSlot] at hj; omega
    rw [slot_setSlot, if_neg fun hc => hjk hc.1]
    exact h.absentEmpty j hj
  sound j := by
    rw [slot_setSlot]
    split
    · exact hx
    · exact h.sound j

/-- The stores right after reset, at power-on and at the reset event. -/
theorem storesInv_of_empty (hwm : s.wm.wf = true) (hs : s.slots = KeySlots.empty) : s.StoresInv := by
  have hslot : ∀ k, s.slot k = KeySlot.empty := fun k => by
    rw [← slot_applyReset s k, State.slot, State.slot, hs, slots_applyReset]
  exact ⟨hwm, fun k _ => hslot k, fun k => hslot k ▸ KeySlot.sound_empty⟩

/-! ### From the stores to the invariant -/

/-- A state with no command held meets the invariant when its stores and its flags do. -/
theorem State.StoresInv.inv_of_idle (h : s.StoresInv) (hl : s.latched = none) (he : s.err ∈ writtenCodes)
    (hr : s.result = true → s.err = 0) : s.Inv where
  wmWf := h.wmWf
  absentEmpty := h.absentEmpty
  invalidEmpty k := (h.sound k).empty_of_invalid
  validExpanded k := (h.sound k).expanded_of_valid
  errWritten := he
  resultOk := hr
  heldMint i hi := by rw [hl] at hi; cases hi

/-- A command that ends with RESULT 0 and a code it may have leaves the invariant. -/
theorem State.StoresInv.inv_finish (h : s.StoresInv) {e : ErrCode} (he : e ≠ .hardwareUnsupported) :
    (s.finish e false).Inv :=
  State.StoresInv.inv_of_idle ⟨h.wmWf, h.absentEmpty, h.sound⟩ rfl (code_mem_writtenCodes he)
    fun hr => (Bool.false_ne_true hr).elim

theorem State.StoresInv.inv_verdict (h : s.StoresInv) (ok : Bool) : (s.verdict ok).Inv := by
  cases ok with
  | true => exact State.StoresInv.inv_of_idle ⟨h.wmWf, h.absentEmpty, h.sound⟩ rfl zero_mem_writtenCodes fun _ => rfl
  | false => exact h.inv_finish (by decide)

/-- A MINT whose checks pass may be held: ERR keeps its code and RESULT is 0 (10_state.md R27, R28). -/
theorem State.Inv.hold_mint (h : s.Inv) {k : Nat} {ident id8 cap : List Byte} (hr : MintReady s k ident id8 cap) :
    (s.hold (.mint k)).Inv where
  wmWf := h.wmWf
  absentEmpty := h.absentEmpty
  invalidEmpty := h.invalidEmpty
  validExpanded := h.validExpanded
  errWritten := h.errWritten
  resultOk hres := (Bool.false_ne_true hres).elim
  heldMint _ hi := ⟨rfl, k, ident, id8, cap, (Option.some.inj hi).symm, hr⟩

/-- The invariant does not speak of the agents' moves and answers, nor of the value last read. -/
theorem State.Inv.of_same_block (h : s.Inv) (events : List Event) (answers : List EntropyAnswer) (request : Nat)
    (readout : Option Word) :
    State.Inv { s with events := events, entropy := answers, request := request, readout := readout } where
  wmWf := h.wmWf
  absentEmpty := h.absentEmpty
  invalidEmpty := h.invalidEmpty
  validExpanded := h.validExpanded
  errWritten := h.errWritten
  resultOk := h.resultOk
  heldMint := h.heldMint

/-! ### Every command and every step -/

theorem State.Inv.of_execEffect (h : s.Inv) (hx : ExecEffect i s t) : t.Inv := by
  cases hx with
  | raised e he => exact h.stores.inv_finish (ne_hardwareUnsupported_of_possible he)
  | stored a vs hw hfit => exact (h.stores.writeWm hfit).inv_finish (by decide)
  | expanded k key hi hk hkey =>
    exact ((h.stores.setSlot hk (KeySlot.sound_expandedSlot _)).writeWm (by decide)).inv_finish (by decide)
  | cleared k hi hk => exact (h.stores.setSlot hk KeySlot.sound_empty).inv_finish (by decide)
  | judged k ok hi => exact h.stores.inv_verdict ok
  | held k ident id8 cap answers hi hr =>
    subst hi
    exact (h.of_same_block s.events answers s.request s.readout).hold_mint hr
  | unanswered k answers hi =>
    exact (h.of_same_block s.events answers (s.request + 1) s.readout).stores.inv_finish (by decide)
  | minted k tok answers hi hl =>
    have hs := (h.of_same_block s.events answers (s.request + 1) s.readout).stores
    exact (hs.writeWm (by rw [hl]; decide)).inv_finish (by decide)

theorem State.Inv.exec (h : s.Inv) (hx : exec i s = .next t) : t.Inv := h.of_execEffect (exec_effect hx)

/-- A host store into WM of an idle block. -/
theorem State.Inv.writeWm_of_idle (h : s.Inv) (hl : s.latched = none) {a : Nat} {vs : List Byte}
    (hfit : a + vs.length ≤ wmBytes) : (s.writeWm a vs).Inv :=
  (h.stores.writeWm hfit).inv_of_idle hl h.errWritten h.resultOk

theorem State.Inv.applyReset (h : s.Inv) : s.applyReset.Inv :=
  (storesInv_of_empty (Memory.wf_afterReset _ h.wmWf) rfl).inv_of_idle rfl zero_mem_writtenCodes
    fun hr => (Bool.false_ne_true hr).elim

end

/-! ## Two states that differ in round keys alone -/

section
variable {s s' : State}

namespace SameButRoundKeys

theorem cfg_eq (h : SameButRoundKeys s s') : s'.cfg = s.cfg := by rw [h.1]
theorem wm_eq (h : SameButRoundKeys s s') : s'.wm = s.wm := by rw [h.1]
theorem latched_eq (h : SameButRoundKeys s s') : s'.latched = s.latched := by rw [h.1]
theorem events_eq (h : SameButRoundKeys s s') : s'.events = s.events := by rw [h.1]

theorem keyv_eq (h : SameButRoundKeys s s') (k : Nat) : s'.keyv k = s.keyv k := by
  rw [State.keyv, State.keyv, h.cfg_eq, h.2 k]

/-- STATUS shows KEYV and the flags, and no round key (10_state.md R34). -/
theorem statusWord_eq (h : SameButRoundKeys s s') : s'.statusWord = s.statusWord := by
  have hresult : s'.result = s.result := by rw [h.1]
  have herr : s'.err = s.err := by rw [h.1]
  simp only [State.statusWord, State.keyvField, State.busy, h.keyv_eq, h.latched_eq, hresult, herr]

theorem registerValue_eq (h : SameButRoundKeys s s') (off : Offset) : s'.registerValue off = s.registerValue off := by
  simp only [State.registerValue, h.statusWord_eq, h.cfg_eq]

/-! ### Each update keeps the two states alike -/

theorem finish (h : SameButRoundKeys s s') (e : ErrCode) (r : Bool) : SameButRoundKeys (s.finish e r) (s'.finish e r) :=
  ⟨congrArg (State.finish · e r) h.1, h.2⟩

theorem writeWm (h : SameButRoundKeys s s') (a : Nat) (vs : List Byte) :
    SameButRoundKeys (s.writeWm a vs) (s'.writeWm a vs) :=
  ⟨congrArg (State.writeWm · a vs) h.1, h.2⟩

theorem deliver (h : SameButRoundKeys s s') (v : Word) : SameButRoundKeys (s.deliver v) (s'.deliver v) :=
  ⟨congrArg (State.deliver · v) h.1, h.2⟩

theorem withEvents (h : SameButRoundKeys s s') (events : List Event) :
    SameButRoundKeys { s with events := events } { s' with events := events } :=
  ⟨congrArg (fun u : State => { u with events := events }) h.1, h.2⟩

theorem setSlot (h : SameButRoundKeys s s') (k : Nat) (x : KeySlot) :
    SameButRoundKeys (s.setSlot k x) (s'.setSlot k x) := by
  refine ⟨congrArg (State.setSlot · k x) h.1, fun j => ?_⟩
  rw [slot_setSlot, slot_setSlot]
  split
  · rfl
  · exact h.2 j

theorem applyReset (h : SameButRoundKeys s s') : SameButRoundKeys s.applyReset s'.applyReset :=
  ⟨congrArg State.applyReset h.1, fun k => by rw [slot_applyReset, slot_applyReset]⟩

/-! ### Each shared operation answers alike -/

theorem raise (h : SameButRoundKeys s s') (e : ErrCode) : SameOutcomeButRoundKeys (s.raise e) (s'.raise e) :=
  h.finish e false

theorem withBytes (h : SameButRoundKeys s s') (a n : Nat) {go go' : List Byte → Result}
    (hgo : ∀ vs, SameOutcomeButRoundKeys (go vs) (go' vs)) :
    SameOutcomeButRoundKeys (s.withBytes a n go) (s'.withBytes a n go') := by
  cases hr : s.wm.readBytes a n with
  | none =>
    rw [withBytes_none hr, withBytes_none (h.wm_eq ▸ hr)]
    exact rfl
  | some vs =>
    rw [withBytes_some hr, withBytes_some (h.wm_eq ▸ hr)]
    exact hgo vs

theorem requireComponent (h : SameButRoundKeys s s') {go go' : Result} (hgo : SameOutcomeButRoundKeys go go') :
    SameOutcomeButRoundKeys (s.requireComponent go) (s'.requireComponent go') := by
  rw [State.requireComponent, State.requireComponent, h.cfg_eq]
  split
  · exact hgo
  · exact h.raise _

theorem requireSlot (h : SameButRoundKeys s s') (k : Nat) {go go' : Result} (hgo : SameOutcomeButRoundKeys go go') :
    SameOutcomeButRoundKeys (s.requireSlot k go) (s'.requireSlot k go') := by
  rw [State.requireSlot, State.requireSlot, h.cfg_eq]
  split
  · exact hgo
  · exact h.raise _

theorem transform (h : SameButRoundKeys s s') (src inLen dst outLen : Nat) (f : List Byte → Option (List Byte)) :
    SameOutcomeButRoundKeys (s.transform src inLen dst outLen f) (s'.transform src inLen dst outLen f) := by
  rw [State.transform, State.transform, State.requireWindows, State.requireWindows]
  split
  · exact h.raise _
  · refine h.withBytes src inLen fun xs => ?_
    cases f xs with
    | none => exact h.raise _
    | some ys => exact (h.writeWm dst ys).finish _ _

/-! ### Each command that uses no round key, and each host access, answers alike -/

theorem execExpand (h : SameButRoundKeys s s') (k : Nat) :
    SameOutcomeButRoundKeys (execExpand k s) (execExpand k s') :=
  h.requireSlot k (h.withBytes keyAddr keyLen fun _ => ((h.setSlot k _).writeWm keyAddr _).finish .ok false)

theorem execClear (h : SameButRoundKeys s s') (k : Nat) : SameOutcomeButRoundKeys (execClear k s) (execClear k s') :=
  h.requireSlot k ((h.setSlot k .empty).finish .ok false)

theorem exec (h : SameButRoundKeys s s') {i : Instr} (hi : usesRoundKeys i = false) :
    SameOutcomeButRoundKeys (exec i s) (exec i s') := by
  cases i with
  | expand k => exact h.execExpand k
  | clear k => exact h.execClear k
  | b64enc src dst n =>
    simp only [Machine.exec, execB64enc, h.cfg_eq]
    exact h.requireComponent (h.transform ..)
  | b64dec src dst n =>
    simp only [Machine.exec, execB64dec, h.cfg_eq]
    exact h.requireComponent (h.transform ..)
  | hexenc src dst n => exact h.requireComponent (h.transform ..)
  | hexdec strict src dst n => exact h.requireComponent (h.transform ..)
  | encrypt k src dst => cases hi
  | mint k => cases hi
  | validate k => cases hi

theorem runCommand (h : SameButRoundKeys s s') (w : Word)
    (hw : ∀ i, decode s.cfg w = .instr i → usesRoundKeys i = false) :
    SameOutcomeButRoundKeys (s.runCommand w) (s'.runCommand w) := by
  rw [State.runCommand, State.runCommand, h.cfg_eq]
  cases hd : decode s.cfg w with
  | instr i => exact h.exec (hw i hd)
  | illegal why => exact h.raise _

theorem hostRead (h : SameButRoundKeys s s') (w : Width) (off : Offset) :
    SameOutcomeButRoundKeys (s.hostRead w off) (s'.hostRead w off) := by
  rcases Nat.lt_or_ge off.toNat 0x200 with hoff | hoff
  · rw [hostRead_wm hoff, hostRead_wm hoff]
    exact h.withBytes _ _ fun vs => h.deliver _
  · rw [hostRead_register hoff, hostRead_register hoff, h.registerValue_eq]
    exact h.deliver _

theorem hostWrite (h : SameButRoundKeys s s') (w : Width) (off : Offset) (v : Word)
    (hcmd : off = cmdOffset → ∀ i, decode s.cfg v = .instr i → usesRoundKeys i = false) :
    SameOutcomeButRoundKeys (s.hostWrite w off v) (s'.hostWrite w off v) := by
  rcases Nat.lt_trichotomy off.toNat 0x200 with hoff | hoff | hoff
  · rw [hostWrite_wm hoff, hostWrite_wm hoff]
    exact h.writeWm _ _
  · rw [hostWrite_cmd hoff, hostWrite_cmd hoff]
    exact h.runCommand v (hcmd ((offset_eq_iff off).1.2 hoff))
  · rw [hostWrite_elsewhere hoff, hostWrite_elsewhere hoff]
    exact h

/-- A host access of an idle block, which runs a command only as a 32-bit write to CMD. -/
theorem hostAccess (h : SameButRoundKeys s s') (hl : s.latched = none) (a : Access)
    (hcmd : ∀ v i, a = .write .word cmdOffset v → decode s.cfg v = .instr i → usesRoundKeys i = false) :
    SameOutcomeButRoundKeys (s.hostAccess a) (s'.hostAccess a) := by
  have hl' : s'.latched = none := h.latched_eq.trans hl
  cases a with
  | read w off =>
    rw [hostAccess_read_idle hl, hostAccess_read_idle hl']
    split
    · exact h.hostRead w off
    · exact rfl
  | write w off v =>
    rw [hostAccess_write_idle hl, hostAccess_write_idle hl']
    split
    case isTrue hs =>
      refine h.hostWrite w off v fun hoff i hd => hcmd v i ?_ hd
      rw [hoff] at hs ⊢
      rw [eq_word_of_widthSupported_cmd hs]
    case isFalse => exact rfl

theorem hostWait (h : SameButRoundKeys s s') : SameOutcomeButRoundKeys s.hostWait s'.hostWait := by
  rw [State.hostWait, State.hostWait, h.statusWord_eq, h.events_eq, State.busy, State.busy, h.latched_eq]
  split
  · exact (h.deliver _).withEvents _
  · exact h.deliver _

end SameButRoundKeys

end

/-! ## The registers -/

section
variable {s : State} {rest : List Event}

/-! ### The fields of STATUS and of INFO (10_state.md R25, R32) -/

theorem statusWord_busy : s.statusWord.getLsbD 0 = s.latched.isSome := by
  simp only [State.statusWord, BitVec.getLsbD_append]
  simp [State.busy]

theorem statusWord_result : s.statusWord.getLsbD 1 = s.result := by
  simp only [State.statusWord, BitVec.getLsbD_append]
  simp

theorem statusWord_reserved_low : s.statusWord.extractLsb' 2 2 = 0 := by
  simp (disch := decide) only [State.statusWord, BitVec.extractLsb'_append_eq_of_le,
    BitVec.extractLsb'_append_eq_of_add_le]
  simp

theorem statusWord_err : s.statusWord.extractLsb' 4 4 = s.err := by
  simp (disch := decide) only [State.statusWord, BitVec.extractLsb'_append_eq_of_le,
    BitVec.extractLsb'_append_eq_of_add_le]
  simp

theorem statusWord_keyvField : s.statusWord.extractLsb' 8 4 = s.keyvField := by
  simp (disch := decide) only [State.statusWord, BitVec.extractLsb'_append_eq_of_le,
    BitVec.extractLsb'_append_eq_of_add_le]
  simp

theorem statusWord_reserved_high : s.statusWord.extractLsb' 12 20 = 0 := by
  simp (disch := decide) only [State.statusWord, BitVec.extractLsb'_append_eq_of_le]
  simp

theorem keyvField_bit {k : Nat} (hk : k < 4) : s.keyvField.getLsbD k = s.keyv k := by
  simp only [State.keyvField, BitVec.getLsbD_append]
  interval_cases k <;> simp

theorem statusWord_keyv {k : Nat} (hk : k < 4) : s.statusWord.getLsbD (8 + k) = s.keyv k := by
  have hbit : (s.statusWord.extractLsb' 8 4).getLsbD k = s.statusWord.getLsbD (8 + k) := by
    simp [hk]
  rw [← hbit, statusWord_keyvField, keyvField_bit hk]

theorem infoWord_version (c : Config) : (infoWord c).extractLsb' 0 8 = 0x01#8 := by
  simp (disch := decide) only [infoWord, BitVec.extractLsb'_append_eq_of_add_le]
  simp

theorem infoWord_slots (c : Config) : ((infoWord c).extractLsb' 8 3).toNat = c.numSlots := by
  simp (disch := decide) only [infoWord, BitVec.extractLsb'_append_eq_of_le, BitVec.extractLsb'_append_eq_of_add_le]
  rw [BitVec.extractLsb'_eq_self, BitVec.toNat_ofNat]
  have := numSlots_le_four c
  omega

theorem infoWord_reserved_middle (c : Config) : (infoWord c).getLsbD 11 = false := by
  simp only [infoWord, BitVec.getLsbD_append]
  simp

theorem infoWord_componentCmds (c : Config) : (infoWord c).getLsbD 12 = c.componentCmds := by
  simp only [infoWord, BitVec.getLsbD_append]
  simp

theorem infoWord_alphabet (c : Config) : (infoWord c).getLsbD 13 = alphabetStdBit c.alphabet := by
  simp only [infoWord, BitVec.getLsbD_append]
  simp

theorem infoWord_reserved_high (c : Config) : (infoWord c).extractLsb' 14 18 = 0 := by
  simp (disch := decide) only [infoWord, BitVec.extractLsb'_append_eq_of_le]
  simp

theorem alphabetStdBit_iff (al : B64Alphabet) : alphabetStdBit al = true ↔ al = .std := by
  cases al <;> decide

/-! ### Register accesses of an idle block -/

/-- A supported read outside WM that the block allows delivers the register's value. -/
theorem step_read_register {w : Width} {off : Offset} (he : s.events = .access (.read w off) :: rest)
    (hs : widthSupported w off = true) (hl : s.latched = none ∨ off = statusOffset ∨ off = infoOffset)
    (hoff : 0x200 ≤ off.toNat) :
    step s = .next { s with events := rest, readout := some (s.registerValue off) } := by
  rw [step_read he hs hl, hostRead_register hoff]
  rfl

/-- A supported write to an idle block above CMD changes nothing. -/
theorem step_write_elsewhere {w : Width} {off : Offset} {v : Word} (he : s.events = .access (.write w off v) :: rest)
    (hs : widthSupported w off = true) (hl : s.latched = none) (hoff : 0x200 < off.toNat) :
    step s = .next { s with events := rest } := by
  rw [step_write he hs hl, hostWrite_elsewhere hoff]

/-- Reserved offsets take 8-bit and aligned 32-bit accesses (20_memory.md R54). -/
theorem widthSupported_reserved {w : Width} {off : Offset} (hoff : 0x20C ≤ off.toNat)
    (hw : w = .byte ∨ (w = .word ∧ off.toNat % 4 = 0)) : widthSupported w off = true := by
  rcases hw with rfl | ⟨rfl, h4⟩
  · simp [widthSupported, (offset_eq_iff off).2.2.2.2 hoff]
  · simp [widthSupported, h4]

/-! ### The state right after reset -/

theorem slot_resetOf (cfg : Config) (k : Nat) : (State.resetOf cfg).slot k = .empty :=
  slot_applyReset (State.resetOf cfg) k

theorem keyv_resetOf (cfg : Config) (k : Nat) : (State.resetOf cfg).keyv k = false := by
  simp [State.keyv, slot_resetOf, KeySlot.empty]

theorem statusWord_resetOf (cfg : Config) : (State.resetOf cfg).statusWord = 0 := by
  rw [State.statusWord, State.keyvField]
  simp only [keyv_resetOf]
  simp only [State.resetOf, State.busy]
  decide

/-- A run of zero bytes reads as zero at each of its addresses. -/
theorem readCells_zeros {a : Nat} : ∀ {n lo : Nat}, lo ≤ a → a < lo + n →
    readCells a ((List.range' lo n).map fun b => (b, 0)) = some 0
  | 0, lo, h1, h2 => by omega
  | n + 1, lo, h1, h2 => by
    rw [List.range'_succ, List.map_cons, readCells]
    split
    · rfl
    · exact readCells_zeros (by omega) (by omega)

theorem read_powerOn_zero {a : Nat} (ha : a < 512) : (Memory.powerOn .zero).read a = some 0 := by
  rw [Memory.read, Memory.powerOn, List.range_eq_range']
  exact readCells_zeros (Nat.zero_le a) (by omega)

end

/-! ## The statements of the family -/

/-- Settles O49: each effect a step can have keeps the invariant, which the moves taken off the list do not touch. -/
theorem everyStepKeepsTheInvariant : Obligations.EveryStepKeepsTheInvariant := by
  intro s t h hstep
  cases step_effect hstep with
  | quiet events readout => exact h.of_same_block events s.entropy s.request readout
  | hostStored events a vs hl hfit =>
    exact (h.of_same_block events s.entropy s.request s.readout).writeWm_of_idle hl hfit
  | illegal w rest hl he =>
    exact (h.of_same_block rest s.entropy s.request s.readout).stores.inv_finish (by decide)
  | command w i rest t hl he hd hx => exact (h.of_same_block rest s.entropy s.request s.readout).exec hx
  | resumed i events answers t hl hx => exact (h.of_same_block events answers s.request s.readout).exec hx
  | reset rest he => exact (h.of_same_block rest s.entropy s.request s.readout).applyReset

/-- Settles O51: an idle block's next move answers alike, whichever agent makes it. -/
theorem roundKeysAreHidden : Obligations.RoundKeysAreHidden := by
  intro s s' h hl hcmd
  refine ⟨h.statusWord_eq, ?_⟩
  have hl' : s'.latched = none := h.latched_eq.trans hl
  cases he : s.events with
  | nil =>
    rw [step_nil he, step_nil (h.events_eq.trans he), coreTurn_idle hl, coreTurn_idle hl']
    exact h
  | cons e rest =>
    rw [step_cons he, step_cons (h.events_eq.trans he)]
    have hr := h.withEvents rest
    cases e with
    | access a =>
      exact hr.hostAccess hl a fun v i ha hd => hcmd v rest i (by rw [he, ha]; rfl) hd
    | waitIdle => exact hr.hostWait
    | coreTurn =>
      simp only [State.move]
      rw [coreTurn_idle (s := { s with events := rest }) hl, coreTurn_idle (s := { s' with events := rest }) hl']
      exact hr
    | entropyAnswer n a =>
      simp only [State.move]
      rw [answerArrives_ignored (s := { s with events := rest }) (.inl hl),
        answerArrives_ignored (s := { s' with events := rest }) (.inl hl')]
      exact hr
    | reset => exact hr.applyReset

/-- Settles O43: the value delivered is the STATUS word, whose fields are read off one by one. -/
theorem statusReadsItsFields : Obligations.StatusReadsItsFields := by
  refine ⟨fun s rest he => ?_, fun s rest v hl he => step_write_elsewhere he (by decide) hl (by decide),
    statusWord_resetOf⟩
  have hread : step s = .next { s with events := rest, readout := some s.statusWord } := by
    rw [step_read_register (off := statusOffset) he (by decide) (.inr (.inl rfl)) (by decide), registerValue_status]
  exact ⟨s.statusWord, hread, statusWord_busy, statusWord_result, statusWord_reserved_low, statusWord_err,
    fun k => statusWord_keyv, statusWord_reserved_high⟩

/-- Settles O44: the value delivered is the INFO word of the parameters, which no step changes. -/
theorem infoReadsTheParameters : Obligations.InfoReadsTheParameters := by
  refine ⟨fun s rest he => ?_, fun s rest v hl he => step_write_elsewhere he (by decide) hl (by decide),
    by decide, fun s t => step_cfg⟩
  have hread : step s = .next { s with events := rest, readout := some (infoWord s.cfg) } := by
    rw [step_read_register (off := infoOffset) he (by decide) (.inr (.inr rfl)) (by decide), registerValue_info]
  exact ⟨infoWord s.cfg, hread, infoWord_version _, infoWord_slots _, infoWord_reserved_middle _,
    infoWord_componentCmds _, by rw [infoWord_alphabet, alphabetStdBit_iff], infoWord_reserved_high _⟩

/-- Settles O7: the write to CMD is supported and allowed, and the word decodes. -/
theorem commandWriteRunsTheDecodedCommand : Obligations.CommandWriteRunsTheDecodedCommand := by
  intro s rest w i hl he hd
  rw [step_write he (by decide) hl, hostWrite_cmd (by decide)]
  simp only [State.runCommand, hd]

/-- Settles O45: CMD and the reserved offsets are neither STATUS nor INFO, and the reserved ones are above CMD. -/
theorem reservedOffsetsReadZero : Obligations.ReservedOffsetsReadZero := by
  intro s rest width off v hl
  refine ⟨fun he => ?_, fun hoff hw => ⟨fun he => ?_, fun he => ?_⟩⟩
  · rw [step_read_register he (by decide) (.inl hl) (by decide), registerValue_other (by decide) (by decide)]
  · rw [step_read_register he (widthSupported_reserved hoff hw) (.inl hl) (by omega),
      registerValue_other (by omega) (by omega)]
  · exact step_write_elsewhere he (widthSupported_reserved hoff hw) hl (by omega)

/-- Settles O46: the slots are the empty store, and WM holds nothing or a run of zero bytes. -/
theorem resetLeavesTheStatedValues : Obligations.ResetLeavesTheStatedValues := by
  intro cfg
  refine ⟨rfl, rfl, rfl, keyv_resetOf cfg, slot_resetOf cfg, fun a hw => ?_, fun a hw ha => ?_, fun off hoff => ?_,
    registerValue_info⟩
  · rw [State.resetOf, hw]
    rfl
  · rw [State.resetOf, hw]
    exact read_powerOn_zero ha
  · exact registerValue_other (by omega) (by omega)

/-- Settles O48: the slots are empty, WM is canonical, and the flags are 0. -/
theorem resetSatisfiesTheInvariant : Obligations.ResetSatisfiesTheInvariant := fun cfg =>
  (storesInv_of_empty (Memory.wf_powerOn cfg.wmReset) rfl).inv_of_idle rfl zero_mem_writtenCodes
    fun hr => (Bool.false_ne_true hr).elim

end Sys2Proof.Machine
end

section
/-! PROOFS. The family 20_memory.md: which host accesses an idle block takes and what each does, the byte order of work
memory, what a command leaves alone, and what it reads; and the statements of the family, settled from these. -/

namespace Sys2Proof.Machine

/-! ## Host accesses -/

section
variable {s : State} {rest : List Event}

/-! ### Supported and unsupported accesses -/

/-- The accesses of 20_memory.md R54, by width and offset. -/
theorem widthSupported_iff (w : Width) (off : Offset) : widthSupported w off = true ↔
    (w = .byte ∧ (off.toNat < 0x200 ∨ 0x20C ≤ off.toNat)) ∨ (w = .word ∧ off.toNat % 4 = 0) := by
  cases w with
  | byte =>
    obtain ⟨-, -, -, hreserved⟩ := offset_eq_iff off
    simp [widthSupported, inWm_iff, hreserved]
  | half => simp [widthSupported]
  | word => simp [widthSupported]
  | other => simp [widthSupported]

/-- Reads and writes are supported alike. -/
theorem supported_eq_widthSupported {a : Access} {w : Width} {off : Offset}
    (ha : a = .read w off ∨ ∃ v, a = .write w off v) : a.supported = widthSupported w off := by
  rcases ha with rfl | ⟨v, rfl⟩
  · rfl
  · rfl

/-- An access that is not supported is refused before the block looks at BUSY. -/
theorem step_unsupported {a : Access} (he : s.events = .access a :: rest) (ha : a.supported = false) :
    step s = .refused (.unsupportedAccess a) := by
  rw [step_cons he, State.move]
  simp only [State.hostAccess, ha, Bool.not_false, if_true]

/-- A host read answers a value, or faults in WM. -/
theorem hostRead_cases (s : State) (w : Width) (off : Offset) :
    (∃ v, s.hostRead w off = .next (s.deliver v)) ∨ (off.toNat < 0x200 ∧ ∃ f, s.hostRead w off = .fault f) := by
  by_cases hoff : off.toNat < 0x200
  · rw [hostRead_wm hoff]
    cases hr : s.wm.readBytes off.toNat w.bytes with
    | none => exact .inr ⟨hoff, _, withBytes_none hr⟩
    | some vs => exact .inl ⟨_, withBytes_some hr⟩
  · exact .inl ⟨_, hostRead_register (by omega)⟩

theorem hostRead_ne_refused (s : State) (w : Width) (off : Offset) (r : Refusal) : s.hostRead w off ≠ .refused r := by
  rcases hostRead_cases s w off with ⟨v, h⟩ | ⟨-, f, h⟩
  · rw [h]; nofun
  · rw [h]; nofun

/-- A command word is never refused: an illegal one raises an error. -/
theorem runCommand_ne_refused (s : State) (w : Word) (r : Refusal) : s.runCommand w ≠ .refused r := by
  rw [State.runCommand]
  split
  · exact exec_ne_refused _ s r
  · nofun

theorem hostWrite_ne_refused (s : State) (w : Width) (off : Offset) (v : Word) (r : Refusal) :
    s.hostWrite w off v ≠ .refused r := by
  rcases Nat.lt_trichotomy off.toNat 0x200 with hoff | hoff | hoff
  · rw [hostWrite_wm hoff]; nofun
  · rw [hostWrite_cmd hoff]; exact runCommand_ne_refused s v r
  · rw [hostWrite_elsewhere hoff]; nofun

/-! ### Accesses to WM, and reading again -/

/-- A supported write of an idle block to WM stores the bytes of the data. -/
theorem step_write_wm {w : Width} {off : Offset} {v : Word} (he : s.events = .access (.write w off v) :: rest)
    (hs : widthSupported w off = true) (hl : s.latched = none) (hoff : off.toNat < 0x200) :
    step s = .next (State.writeWm { s with events := rest } off.toNat (leBytes w.bytes v)) := by
  rw [step_write he hs hl, hostWrite_wm hoff]

/-- A supported read of an idle block from WM delivers the bytes that stand there. -/
theorem step_read_wm {w : Width} {off : Offset} {vs : List Byte} (he : s.events = .access (.read w off) :: rest)
    (hs : widthSupported w off = true) (hl : s.latched = none) (hoff : off.toNat < 0x200)
    (hr : s.wm.readBytes off.toNat w.bytes = some vs) :
    step s = .next { s with events := rest, readout := some (ofLeBytes vs) } := by
  rw [step_read he hs (.inl hl), hostRead_wm hoff, withBytes_some (s := { s with events := rest }) hr]
  rfl

@[simp] theorem deliver_deliver (s : State) (u v : Word) : (s.deliver u).deliver v = s.deliver v := rfl

@[simp] theorem registerValue_deliver (s : State) (v : Word) (off : Offset) :
    (s.deliver v).registerValue off = s.registerValue off := rfl

/-- The value last read has no part in a read (log entry 8). -/
theorem hostRead_deliver (s : State) (v : Word) (w : Width) (off : Offset) :
    (s.deliver v).hostRead w off = s.hostRead w off := by
  by_cases hoff : off.toNat < 0x200
  · rw [hostRead_wm hoff, hostRead_wm hoff]
    simp only [State.withBytes, wm_deliver, deliver_deliver]
  · rw [hostRead_register (by omega), hostRead_register (by omega), registerValue_deliver, deliver_deliver]

/-! ### Byte order (20_memory.md R51, R52) -/

/-- Byte `i` of a word, little-endian, is its bits from 8·i up. -/
theorem leBytes_eq_map (n : Nat) : ∀ v : Word, leBytes n v = (List.range n).map fun i => v.extractLsb' (8 * i) 8 := by
  induction n with
  | zero => intro v; rfl
  | succ n ih =>
    intro v
    rw [leBytes, ih, List.range_succ_eq_map, List.map_cons, List.map_map]
    congr 1
    refine List.map_congr_left fun i _ => ?_
    have hbits : (v >>> 8).extractLsb' (8 * i) 8 = v.extractLsb' (8 * (i + 1)) 8 := by
      ext j hj
      simp only [BitVec.getElem_extractLsb', BitVec.getLsbD_ushiftRight]
      congr 1
      omega
    exact hbits

theorem ofLeBytes_one (b : Byte) : ofLeBytes [b] = b.setWidth 32 := by
  simp [ofLeBytes]

/-- The first byte of a little-endian string stands below the rest. -/
theorem ofLeBytes_cons {w : Nat} {b : Byte} {rest : List Byte} {x : BitVec w} (h : ofLeBytes rest = x.setWidth 32) :
    ofLeBytes (b :: rest) = (x ++ b).setWidth 32 := by
  rw [ofLeBytes, h]
  ext j hj
  simp only [BitVec.getElem_or, BitVec.getElem_setWidth, BitVec.getElem_shiftLeft, BitVec.getLsbD_append]
  by_cases hlow : j < 8
  · simp [hlow]
  · simp [hlow, BitVec.getLsbD_of_ge b j (Nat.le_of_not_lt hlow)]

theorem ofLeBytes_four (b0 b1 b2 b3 : Byte) : ofLeBytes [b0, b1, b2, b3] = b3 ++ b2 ++ b1 ++ b0 :=
  (ofLeBytes_cons (ofLeBytes_cons (ofLeBytes_cons (ofLeBytes_one b3)))).trans (BitVec.setWidth_eq _)

end

/-! ## What a command leaves alone -/

section
variable {s t : State} {i : Instr}

/-- A command that ends with an error has touched neither store and leaves RESULT 0 (20_memory.md R62). -/
theorem ExecEffect.unchanged_of_error (h : ExecEffect i s t) (hl : t.latched = none) (he : t.err ≠ 0) :
    t.wm = s.wm ∧ t.slots = s.slots ∧ t.result = false := by
  cases h with
  | raised e _ => exact ⟨rfl, rfl, rfl⟩
  | judged k ok _ =>
    cases ok with
    | true => exact (he rfl).elim
    | false => exact ⟨rfl, rfl, rfl⟩
  | unanswered k answers _ => exact ⟨rfl, rfl, rfl⟩
  | held => cases hl
  | stored | expanded | cleared | minted => exact (he rfl).elim

/-- The bytes outside a store keep their values. -/
theorem read_writeBytes_of_not_inWindow {m : Memory} {a b : Nat} {vs : List Byte} (h : ¬ inWindow (a, vs.length) b) :
    (m.writeBytes a vs).read b = m.read b :=
  Memory.read_writeBytes_of_outside (by simp only [inWindow] at h; omega)

/-- No byte outside the store window changes (20_memory.md R59). -/
theorem ExecEffect.read_eq (h : ExecEffect i s t) {b : Nat} (hb : ¬ inWindow (storeWindow i) b) :
    t.wm.read b = s.wm.read b := by
  cases h with
  | stored a vs hw _ => exact read_writeBytes_of_not_inWindow (hw ▸ hb)
  | expanded k key hi _ _ =>
    subst hi
    exact read_writeBytes_of_not_inWindow (a := keyAddr) (vs := List.replicate keyLen 0) hb
  | judged k ok _ => rw [verdict_eq, wm_finish]
  | minted k tok answers hi hlen =>
    subst hi
    exact read_writeBytes_of_not_inWindow (a := tokAddr) (vs := tok) (hlen ▸ hb)
  | raised | cleared | held | unanswered => rfl

/-- No slot changes but the one that EXPAND or CLEAR names (40_key_schedule.md R107). -/
theorem ExecEffect.slot_eq (h : ExecEffect i s t) {k : Nat} (hk : writesSlot i ≠ some k) : t.slot k = s.slot k := by
  cases h with
  | expanded j key hi _ _ =>
    subst hi
    rw [slot_finish, slot_writeWm, slot_setSlot, if_neg fun hc => hk (congrArg some hc.1.symm)]
  | cleared j hi _ =>
    subst hi
    rw [slot_finish, slot_setSlot, if_neg fun hc => hk (congrArg some hc.1.symm)]
  | judged j ok _ => rw [verdict_eq, slot_finish]
  | raised | stored | held | unanswered | minted => rfl

/-- The host's part of the state is no command's. -/
theorem ExecEffect.host_eq (h : ExecEffect i s t) : t.events = s.events ∧ t.readout = s.readout := by
  cases h with
  | judged k ok _ => rw [verdict_eq]; exact ⟨rfl, rfl⟩
  | held => exact ⟨rfl, rfl⟩
  | _ =>
    simp only [events_finish, events_writeWm, events_setSlot, events_requestAnswered, readout_finish,
      readout_writeWm, readout_setSlot, readout_requestAnswered, and_self]

/-- Only MINT asks for entropy, and only MINT is ever held. -/
theorem ExecEffect.entropy_eq (h : ExecEffect i s t) (hi : ∀ k, i ≠ .mint k) :
    t.entropy = s.entropy ∧ t.request = s.request ∧ t.latched = none := by
  cases h with
  | judged k ok _ => rw [verdict_eq]; exact ⟨rfl, rfl, rfl⟩
  | held k _ _ _ _ hm | unanswered k _ hm | minted k _ _ hm => exact (hi k hm).elim
  | _ =>
    simp only [entropy_finish, entropy_writeWm, entropy_setSlot, request_finish, request_writeWm, request_setSlot,
      latched_finish, and_self]

end

/-! ## What a command reads -/

/-- The state with another work memory. -/
def State.withWm (s : State) (m : Memory) : State := { s with wm := m }

@[simp] theorem wm_withWm (s : State) (m : Memory) : (s.withWm m).wm = m := rfl

/-- Two memories that agree on every window a command reads. -/
def AgreeOnReads (i : Instr) (m m' : Memory) : Prop := ∀ w ∈ readWindows i, ∀ b, inWindow w b → m.read b = m'.read b

theorem AgreeOnReads.readBytes_eq {i : Instr} {m m' : Memory} (h : AgreeOnReads i m m') {a n : Nat}
    (hw : (a, n) ∈ readWindows i) : m.readBytes a n = m'.readBytes a n :=
  Memory.readBytes_congr fun b hlo hhi => h (a, n) hw b ⟨hlo, hhi⟩

section
variable {s : State} {m : Memory} {i : Instr}

namespace SameOutcomeButWm

/-! ### The ways a command ends -/

theorem finish (s : State) (m : Memory) (e : ErrCode) (r : Bool) :
    SameOutcomeButWm i s.wm m (.next (s.finish e r)) (.next ((s.withWm m).finish e r)) :=
  ⟨rfl, .inl ⟨rfl, rfl⟩⟩

theorem hold (s : State) (m : Memory) (j : Instr) :
    SameOutcomeButWm i s.wm m (.next (s.hold j)) (.next ((s.withWm m).hold j)) :=
  ⟨rfl, .inl ⟨rfl, rfl⟩⟩

theorem verdict (s : State) (m : Memory) (ok : Bool) :
    SameOutcomeButWm i s.wm m (.next (s.verdict ok)) (.next ((s.withWm m).verdict ok)) := by
  rw [verdict_eq, verdict_eq]
  exact finish s m _ ok

/-- Stored bytes are the same bytes in both memories. -/
theorem store (s : State) (m : Memory) {a : Nat} {vs : List Byte} (hw : storeWindow i = (a, vs.length)) :
    SameOutcomeButWm i s.wm m (.next ((s.writeWm a vs).finish .ok false))
      (.next (((s.withWm m).writeWm a vs).finish .ok false)) := by
  refine ⟨rfl, .inr fun b hb => ?_⟩
  rw [hw] at hb
  obtain ⟨hlo, hhi⟩ := hb
  obtain ⟨j, rfl⟩ := Nat.exists_eq_add_of_le hlo
  have hj : j < vs.length := Nat.lt_of_add_lt_add_left hhi
  simp only [wm_finish, wm_writeWm, wm_withWm, Memory.read_writeBytes_inside hj]

/-! ### The checks, which do not look at WM -/

theorem requireComponent {go go' : Result} (h : SameOutcomeButWm i s.wm m go go') :
    SameOutcomeButWm i s.wm m (s.requireComponent go) ((s.withWm m).requireComponent go') := by
  cases hc : s.cfg.componentCmds with
  | true => rwa [requireComponent_pass hc, requireComponent_pass (s := s.withWm m) hc]
  | false =>
    rw [requireComponent_fail hc, requireComponent_fail (s := s.withWm m) hc]
    exact finish s m _ _

theorem requireSlot {k : Nat} {go go' : Result} (h : SameOutcomeButWm i s.wm m go go') :
    SameOutcomeButWm i s.wm m (s.requireSlot k go) ((s.withWm m).requireSlot k go') := by
  rcases Nat.lt_or_ge k s.cfg.numSlots with hk | hk
  · rwa [requireSlot_pass hk, requireSlot_pass (s := s.withWm m) hk]
  · rw [requireSlot_fail hk, requireSlot_fail (s := s.withWm m) hk]
    exact finish s m _ _

theorem requireWindows {src inLen dst outLen : Nat} {go go' : Result} (h : SameOutcomeButWm i s.wm m go go') :
    SameOutcomeButWm i s.wm m (s.requireWindows src inLen dst outLen go)
      ((s.withWm m).requireWindows src inLen dst outLen go') := by
  rw [State.requireWindows, State.requireWindows]
  split
  · exact finish s m _ _
  · exact h

theorem requireKey {k : Nat} {go go' : RoundKeys → Result} (h : ∀ rk, SameOutcomeButWm i s.wm m (go rk) (go' rk)) :
    SameOutcomeButWm i s.wm m (s.requireKey k go) ((s.withWm m).requireKey k go') := by
  cases hv : (s.slot k).valid with
  | true =>
    rw [requireKey_pass hv, requireKey_pass (s := s.withWm m) hv]
    exact h _
  | false =>
    rw [requireKey_fail hv, requireKey_fail (s := s.withWm m) hv]
    exact finish s m _ _

/-! ### The operations that look at WM, and the entropy request -/

/-- A window that the command reads gives the same bytes, or the same fault. -/
theorem withBytes (hm : AgreeOnReads i s.wm m) {a n : Nat} (hw : (a, n) ∈ readWindows i) {go go' : List Byte → Result}
    (hgo : ∀ vs, vs.length = n → SameOutcomeButWm i s.wm m (go vs) (go' vs)) :
    SameOutcomeButWm i s.wm m (s.withBytes a n go) ((s.withWm m).withBytes a n go') := by
  have heq := hm.readBytes_eq hw
  cases hr : s.wm.readBytes a n with
  | none =>
    rw [withBytes_none hr, withBytes_none (s := s.withWm m) (heq ▸ hr)]
    exact rfl
  | some vs =>
    rw [withBytes_some hr, withBytes_some (s := s.withWm m) (heq ▸ hr)]
    exact hgo vs (Memory.length_readBytes hr)

/-- A codec operand form whose conversion has the length its window has. -/
theorem transform (hm : AgreeOnReads i s.wm m) {src inLen dst outLen : Nat} {f : List Byte → Option (List Byte)}
    (hr : (src, inLen) ∈ readWindows i) (hw : storeWindow i = (dst, outLen))
    (hlen : ∀ xs ys, xs.length = inLen → f xs = some ys → ys.length = outLen) :
    SameOutcomeButWm i s.wm m (s.transform src inLen dst outLen f) ((s.withWm m).transform src inLen dst outLen f) := by
  refine requireWindows (withBytes hm hr fun xs hx => ?_)
  cases hf : f xs with
  | none => exact finish s m _ _
  | some ys => exact store s m (by rw [hw, hlen xs ys hx hf])

/-- A conversion that never fails on data. -/
theorem transform_total (hm : AgreeOnReads i s.wm m) {src inLen dst outLen : Nat} {g : List Byte → List Byte}
    (hr : (src, inLen) ∈ readWindows i) (hw : storeWindow i = (dst, outLen))
    (hlen : ∀ xs, xs.length = inLen → (g xs).length = outLen) :
    SameOutcomeButWm i s.wm m (s.transform src inLen dst outLen fun xs => some (g xs))
      ((s.withWm m).transform src inLen dst outLen fun xs => some (g xs)) :=
  transform hm hr hw fun xs _ hx hf => Option.some.inj hf ▸ hlen xs hx

/-- The source's answer does not depend on WM. -/
theorem requestEntropy {go go' : State → List Byte → Result} (hgo : ∀ (rest : List EntropyAnswer) (nonce : Nonce),
      SameOutcomeButWm i s.wm m (go (s.requestAnswered rest) nonce.toBytes)
        (go' ((s.requestAnswered rest).withWm m) nonce.toBytes)) (j : Instr) :
    SameOutcomeButWm i s.wm m (s.requestEntropy j go) ((s.withWm m).requestEntropy j go') := by
  rw [State.requestEntropy, State.requestEntropy, show (s.withWm m).entropy = s.entropy from rfl]
  cases s.entropy with
  | nil => exact hold s m j
  | cons answer rest =>
    cases answer with
    | wait => exact hold { s with entropy := rest } m j
    | fail => exact finish (s.requestAnswered rest) m _ _
    | bytes nonce => exact hgo rest nonce

/-! ### Each command -/

theorem execMint {k : Nat} (hm : AgreeOnReads (.mint k) s.wm m) :
    SameOutcomeButWm (.mint k) s.wm m (execMint k s) (execMint k (s.withWm m)) := by
  refine requireSlot (requireKey fun rk => withBytes hm (by simp [readWindows]) fun ident hident => ?_)
  cases hid8 : idExtract ident with
  | none => exact finish s m _ _
  | some id8 =>
    refine withBytes hm (by simp [readWindows]) fun cap hcap => requestEntropy (fun rest nonce => ?_) _
    have h8 : id8.length = 8 := length_idExtract hident hid8
    have htok := length_tokenImage s.cfg.alphabet h8 (cn8 := cap ++ nonce.toBytes)
      (by simp [hcap, Nonce.toBytes]) (length_cipherBytes rk (id8 ++ cap ++ nonce.toBytes))
    exact store (s.requestAnswered rest) m (congrArg (tokAddr, ·) htok.symm)

theorem execValidate {k : Nat} (hm : AgreeOnReads (.validate k) s.wm m) :
    SameOutcomeButWm (.validate k) s.wm m (execValidate k s) (execValidate k (s.withWm m)) :=
  requireSlot <| requireKey fun _ =>
    withBytes hm (by simp [readWindows, tokAddr, subStart]) fun _ _ =>
      withBytes hm (by simp [readWindows, tokAddr, jtiStart]) fun _ _ =>
        withBytes hm (by simp [readWindows, tokAddr, tagStart]) fun _ _ => verdict s m _

theorem exec (hm : AgreeOnReads i s.wm m) : SameOutcomeButWm i s.wm m (exec i s) (exec i (s.withWm m)) := by
  cases i with
  | expand k =>
    exact requireSlot <| withBytes hm (by simp [readWindows]) fun key _ => store (s.setSlot k _) m rfl
  | clear k => exact requireSlot (finish (s.setSlot k .empty) m _ _)
  | encrypt k src dst =>
    exact requireComponent <| requireSlot <| requireWindows <| requireKey fun rk =>
      withBytes hm (by simp [readWindows]) fun p _ => store s m rfl
  | b64enc src dst n =>
    exact requireComponent <| transform_total (g := b64Enc s.cfg.alphabet) hm (by simp [readWindows]) rfl
      fun xs hx => by rw [length_b64Enc]; omega
  | b64dec src dst n =>
    exact requireComponent <| transform_total (g := b64Dec s.cfg.alphabet) hm (by simp [readWindows]) rfl
      fun xs hx => by rw [length_b64Dec]; omega
  | hexenc src dst n =>
    exact requireComponent <| transform_total hm (by simp [readWindows]) rfl fun xs hx => by rw [length_hexEnc, hx]
  | hexdec strict src dst n =>
    refine requireComponent <| transform hm (by simp [readWindows]) rfl fun xs ys hx hf => ?_
    have hy : ys = hexDecT xs := by
      cases strict with
      | true => exact (hexDecS_eq_some.1 hf).2
      | false => exact (Option.some.inj hf).symm
    rw [hy, length_hexDecT]
    omega
  | mint k => exact execMint hm
  | validate k => exact execValidate hm

end SameOutcomeButWm

end

/-! ## The statements of the family -/

/-- Settles O37: none of the widths and offsets listed is supported. -/
theorem unsupportedAccessesAreRefused : Obligations.UnsupportedAccessesAreRefused := by
  intro s rest a width off he ha hbad
  refine step_unsupported he ?_
  rw [supported_eq_widthSupported ha, ← Bool.not_eq_true, widthSupported_iff]
  rcases hbad with ⟨rfl, h4⟩ | rfl | rfl | ⟨rfl, hlo, hhi⟩
  · simp [h4]
  · simp
  · simp
  · simp only [true_and, reduceCtorEq, false_and, or_false]
    omega

/-- Settles O38: an idle block makes every supported access, and neither a read nor a write of it refuses. -/
theorem supportedAccessesAreAccepted : Obligations.SupportedAccessesAreAccepted := by
  intro s rest a width off he ha hl hw r
  have hs := (widthSupported_iff width off).2 hw
  rcases ha with rfl | ⟨v, rfl⟩
  · rw [step_read he hs (.inl hl)]
    exact hostRead_ne_refused _ width off r
  · rw [step_write he hs hl]
    exact hostWrite_ne_refused _ width off v r

/-- Settles O40: a read delivers a value and does not look at the last one; a write goes by its offset. -/
theorem hostAccessesHaveTheirSideEffectsOnly : Obligations.HostAccessesHaveTheirSideEffectsOnly := by
  intro s rest width off hl hw
  have hs := (widthSupported_iff width off).2 hw
  refine ⟨fun he => ?_, fun v he => ⟨fun hoff => ?_, step_write_elsewhere he hs hl, fun hoff => ?_⟩,
    fun t he hstep => ?_⟩
  · rw [step_read he hs (.inl hl)]
    exact hostRead_cases { s with events := rest } width off
  · rw [step_write he hs hl, hostWrite_cmd hoff]
  · refine ⟨_, step_write_wm he hs hl hoff, rfl, fun b hb => ?_⟩
    exact Memory.read_writeBytes_of_outside (by rwa [length_leBytes])
  · rw [step_read he hs (.inl hl)] at hstep
    obtain ⟨v, rfl⟩ := hostRead_next hstep
    calc step { State.deliver { s with events := rest } v with events := s.events }
      _ = (State.deliver { s with events := rest } v).hostRead width off := step_read he hs (.inl hl)
      _ = State.hostRead { s with events := rest } width off := hostRead_deliver _ v width off
      _ = .next (State.deliver { s with events := rest } v) := hstep

/-- Settles O41: a store of `leBytes` reads back, and a read joins its bytes by `ofLeBytes`. -/
theorem wordAccessesToWmAreLittleEndian : Obligations.WordAccessesToWmAreLittleEndian := by
  intro s rest off v hl hoff
  have hbyte : widthSupported .byte off = true := (widthSupported_iff _ _).2 (.inl ⟨rfl, .inl hoff⟩)
  refine ⟨fun he h4 => ?_, fun b0 b1 b2 b3 he h4 hr => ?_, fun he => ?_, fun b he hb => ?_⟩
  · have hword : widthSupported .word off = true := (widthSupported_iff _ _).2 (.inr ⟨rfl, h4⟩)
    refine ⟨_, step_write_wm he hword hl hoff, ?_⟩
    rw [wm_writeWm, leBytes_eq_map]
    exact Memory.readBytes_writeBytes _ _ _
  · have hword : widthSupported .word off = true := (widthSupported_iff _ _).2 (.inr ⟨rfl, h4⟩)
    rw [step_read_wm he hword hl hoff hr, ofLeBytes_four]
  · refine ⟨_, step_write_wm he hbyte hl hoff, ?_⟩
    rw [wm_writeWm, leBytes_eq_map]
    exact Memory.read_write_same _ _ _
  · have hr : s.wm.readBytes off.toNat 1 = some [b] := by simp [Memory.readBytes, hb]
    rw [step_read_wm he hbyte hl hoff hr, ofLeBytes_one]

/-- Settles O17: every effect that ends with an error is a change of the flags alone. -/
theorem errorsChangeNoByteAndNoSlot : Obligations.ErrorsChangeNoByteAndNoSlot :=
  fun _ _ _ hx hl he => (exec_effect hx).unchanged_of_error hl he

/-- Settles O19: no effect of a command reaches past its store window, its slot and, for MINT, its request. -/
theorem commandsLeaveTheRestAlone : Obligations.CommandsLeaveTheRestAlone := by
  intro i s t hx
  have heff := exec_effect hx
  obtain ⟨hevents, hreadout⟩ := heff.host_eq
  exact ⟨heff.cfg_eq, hevents, hreadout, fun b => heff.read_eq, fun k => heff.slot_eq, heff.entropy_eq⟩

/-- Settles O20: every check, read and end of a command answers alike in memories that agree on what it reads. -/
theorem commandsReadTheirWindowsOnly : Obligations.CommandsReadTheirWindowsOnly :=
  fun _ _ _ hm => SameOutcomeButWm.exec hm

end Sys2Proof.Machine
end

section
/-! PROOFS. The family 30_encoding.md: the decoder and the encoder by the fields of a word, the rows of match and mask
by the same fields, illegal words, and WAIT; and the statements of the family, settled from these. -/

namespace Sys2Proof.Machine

open Sys2Proof.Laws.EncodedFields

section
variable {cfg : Config} {w : Word} {i : Instr}

/-! ## A word and its fields -/

/-- The fields by their bits (30_encoding.md R81). -/
theorem holds_iff_wordField {op slot strict src dst n : Nat} : holds w op slot strict src dst n ↔
    wordField w 0 4 = op ∧ wordField w 4 2 = slot ∧ wordField w 6 1 = strict ∧ wordField w 7 1 = 0 ∧
      wordField w 8 9 = src ∧ wordField w 17 9 = dst ∧ wordField w 26 6 = n := Iff.rfl

/-- A word is what its fields pack to: no two words have the same fields (30_encoding.md R80, R81). -/
theorem eq_packWord_iff_holds {op slot strict src dst n : Nat} (h1 : op < 16) (h2 : slot < 4) (h3 : strict < 2)
    (h4 : src < 512) (h5 : dst < 512) (h6 : n < 64) :
    w = packWord op slot strict src dst n ↔ holds w op slot strict src dst n := by
  refine ⟨fun h => h ▸ fields_packWord h1 h2 h3 h4 h5 h6, fun ⟨hop, hslot, hs, hrsv, hsrc, hdst, hn⟩ => ?_⟩
  apply BitVec.eq_of_toNat_eq
  rw [packWord_toNat h1 h2 h3 h4 h5 h6, (word_fields w).1, hop, hslot, hs, hrsv, hsrc, hdst, hn, Nat.zero_mul,
    Nat.add_zero]

/-- Fields that a word holds are in their ranges. -/
theorem fields_lt_of_holds {op slot strict src dst n : Nat} (h : holds w op slot strict src dst n) :
    op < 16 ∧ slot < 4 ∧ strict < 2 ∧ src < 512 ∧ dst < 512 ∧ n < 64 := by
  obtain ⟨rfl, rfl, rfl, -, rfl, rfl, rfl⟩ := h
  obtain ⟨-, hop, hslot, hs, -, hsrc, hdst, hn⟩ := word_fields w
  exact ⟨hop, hslot, hs, hsrc, hdst, hn⟩

theorem packWord_of_holds {op slot strict src dst n : Nat} (h : holds w op slot strict src dst n) :
    packWord op slot strict src dst n = w := by
  obtain ⟨hop, hslot, hs, hsrc, hdst, hn⟩ := fields_lt_of_holds h
  exact ((eq_packWord_iff_holds hop hslot hs hsrc hdst hn).2 h).symm

/-! ## The encoder -/

/-- The encoding of a well-formed command holds the command's fields (30_encoding.md R82, R88). -/
theorem fieldsOf_encode (h : i.wellFormed = true) : fieldsOf (encode i) i := by
  cases i with
  | expand k => exact expand k h
  | clear k => exact clear k h
  | encrypt k src dst => exact encrypt k src dst h
  | b64enc src dst n => exact b64enc src dst n h
  | b64dec src dst n => exact b64dec src dst n h
  | hexenc src dst n => exact hexenc src dst n h
  | hexdec strict src dst n => exact hexdec strict src dst n h
  | mint k => exact mint k h
  | validate k => exact validate k h

/-- The one word that holds a command's fields is the command's encoding. -/
theorem encode_of_fieldsOf (h : fieldsOf w i) : encode i = w := by
  cases i <;> exact packWord_of_holds h

/-- A command whose fields a word holds is well formed. -/
theorem wellFormed_of_fieldsOf (h : fieldsOf w i) : i.wellFormed = true := by
  cases i <;> obtain ⟨-, hslot, -, hsrc, hdst, hn⟩ := fields_lt_of_holds h <;>
    simp [Instr.wellFormed, slotFits, addrFits, countFits, *]

/-! ## The decoder -/

/-- A word decodes to a command exactly when it holds the command's fields and the command exists in the build
(30_encoding.md R83, R85, R87). -/
theorem decode_eq_instr_iff_fieldsOf : decode cfg w = .instr i ↔
    (i.isComponent = true → cfg.componentCmds = true) ∧ fieldsOf w i := by
  rw [decode_eq_instr]
  cases i with
  | hexdec strict src dst n =>
    have hform : strict = (fieldS w == 1) ↔ fieldS w = strict.toNat := by
      obtain ⟨-, -, -, hs, -⟩ := word_fields w
      cases strict <;> simp only [Bool.toNat_false, Bool.toNat_true] <;> grind
    simp only [fieldsOf, holds, Instr.isComponent]
    grind
  | _ => simp only [fieldsOf, holds, Instr.isComponent]; grind

/-- The decoder accepts a word or names a reason why it is illegal. -/
theorem exists_illegal_of_ne_instr (h : ∀ i, decode cfg w ≠ .instr i) : ∃ why, decode cfg w = .illegal why := by
  cases hd : decode cfg w with
  | instr i => exact (h i hd).elim
  | illegal why => exact ⟨why, rfl⟩

/-- The component commands are those with the opcodes 3 to 7 (00_scope.md R14, 30_encoding.md R85). -/
theorem isComponent_iff_of_fieldsOf (h : fieldsOf w i) : i.isComponent = true ↔ 3 ≤ fieldOp w ∧ fieldOp w ≤ 7 := by
  cases i <;> obtain ⟨hop, -⟩ := h <;> simp [Instr.isComponent, hop]

/-- Without component commands no word with an opcode from 3 to 7 is a command (30_encoding.md R85). -/
theorem ne_instr_of_component_opcode (hoff : cfg.componentCmds = false) (hlo : 3 ≤ fieldOp w) (hhi : fieldOp w ≤ 7) :
    decode cfg w ≠ .instr i := by
  intro hd
  obtain ⟨hc, hf⟩ := decode_eq_instr_iff_fieldsOf.1 hd
  have hon := hc ((isComponent_iff_of_fieldsOf hf).2 ⟨hlo, hhi⟩)
  exact Bool.false_ne_true (hoff.symm.trans hon)

/-- The parameter COMPONENT_CMDS_ENABLED is asked for the opcodes 3 to 7 only (30_encoding.md R85, R87). -/
theorem decode_of_public_opcode (b : Bool) (h : fieldOp w < 3 ∨ 7 < fieldOp w) :
    decode cfg w = decode { cfg with componentCmds := b } w := by
  have hop : fieldOp w < 16 := (word_fields w).2.1
  unfold decode
  generalize fieldOp w = op at h hop
  rcases h with h | h <;> interval_cases op <;> rfl

/-- A default build reads a table word back as the command it encodes: the default has component commands
(00_scope.md R7, 30_encoding.md R88). -/
theorem decodeTableWord_of_encode {nbits n : Nat} (hwf : i.wellFormed = true) (hn : tableWord nbits n = encode i) :
    decodeTableWord nbits n = some i := by
  have hd : decode Config.default (encode i) = .instr i :=
    decode_eq_instr_iff_fieldsOf.2 ⟨fun _ => rfl, fieldsOf_encode hwf⟩
  simp only [decodeTableWord, hn, hd]

/-! ## Match and mask -/

theorem wordField_and (m : Word) (lo len : Nat) :
    wordField (w &&& m) lo len = wordField w lo len &&& wordField m lo len := by
  simp only [wordField, BitVec.extractLsb'_and, BitVec.toNat_and]

/-- A field under a mask that has all its bits. -/
theorem wordField_and_of_ones {m : Word} {lo len : Nat} (h : wordField m lo len = 2 ^ len - 1) :
    wordField (w &&& m) lo len = wordField w lo len := by
  rw [wordField_and, h, Nat.and_two_pow_sub_one_eq_mod, wordField_eq, Nat.mod_mod]

/-- A field under a mask that has none of its bits. -/
theorem wordField_and_of_zero {m : Word} {lo len : Nat} (h : wordField m lo len = 0) :
    wordField (w &&& m) lo len = 0 := by
  rw [wordField_and, h, Nat.and_zero]

/-- A row with an opcode as its match selects the words that hold the opcode, and 0 elsewhere, under its mask. -/
theorem selects_iff_holds {op : Nat} (hop : op < 16) (mask : Word) :
    (OpcodeRow.mk (packWord op 0 0 0 0 0) mask).selects w = true ↔ holds (w &&& mask) op 0 0 0 0 0 := by
  rw [OpcodeRow.selects_iff]
  exact eq_packWord_iff_holds hop (by decide) (by decide) (by decide) (by decide) (by decide)

/-- The mask of EXPAND, CLEAR, MINT and VALIDATE leaves out the slot. -/
theorem selects_slotOnly {op : Nat} (hop : op < 16) :
    (OpcodeRow.mk (packWord op 0 0 0 0 0) 0xFFFFFFCF).selects w = true ↔ ∃ slot, holds w op slot 0 0 0 0 := by
  rw [selects_iff_holds hop]
  simp (disch := decide) [holds_iff_wordField, wordField_and_of_ones, wordField_and_of_zero]

/-- The mask of ENCRYPT leaves out the slot and the two addresses. -/
theorem selects_encrypt : (opcodeRow (.encrypt 0 0 0)).selects w = true ↔
    ∃ slot src dst, holds w 3 slot 0 src dst 0 := by
  refine (selects_iff_holds (op := 3) (by decide) 0xFC0000CF).trans ?_
  simp (disch := decide) [holds_iff_wordField, wordField_and_of_ones, wordField_and_of_zero]

/-- The mask of B64ENC, B64DEC and HEXENC leaves out the two addresses and the count. -/
theorem selects_codec {op : Nat} (hop : op < 16) :
    (OpcodeRow.mk (packWord op 0 0 0 0 0) 0x000000FF).selects w = true ↔ ∃ src dst n, holds w op 0 0 src dst n := by
  rw [selects_iff_holds hop]
  simp (disch := decide) [holds_iff_wordField, wordField_and_of_ones, wordField_and_of_zero]

/-- The mask of HEXDEC leaves out its S bit, the two addresses and the count. -/
theorem selects_hexdec : (opcodeRow (.hexdec false 0 0 0)).selects w = true ↔
    ∃ strict src dst n, holds w 7 0 strict src dst n := by
  refine (selects_iff_holds (op := 7) (by decide) 0x000000BF).trans ?_
  simp (disch := decide) [holds_iff_wordField, wordField_and_of_ones, wordField_and_of_zero]

/-- The row of a command selects each word with the command's fields (30_encoding.md R82). -/
theorem selects_of_fieldsOf (h : fieldsOf w i) : (opcodeRow i).selects w = true := by
  cases i with
  | expand k => exact (selects_slotOnly (op := 1) (by decide)).2 ⟨k, h⟩
  | clear k => exact (selects_slotOnly (op := 2) (by decide)).2 ⟨k, h⟩
  | encrypt k src dst => exact selects_encrypt.2 ⟨k, src, dst, h⟩
  | b64enc src dst n => exact (selects_codec (op := 4) (by decide)).2 ⟨src, dst, n, h⟩
  | b64dec src dst n => exact (selects_codec (op := 5) (by decide)).2 ⟨src, dst, n, h⟩
  | hexenc src dst n => exact (selects_codec (op := 6) (by decide)).2 ⟨src, dst, n, h⟩
  | hexdec strict src dst n => exact selects_hexdec.2 ⟨strict.toNat, src, dst, n, h⟩
  | mint k => exact (selects_slotOnly (op := 8) (by decide)).2 ⟨k, h⟩
  | validate k => exact (selects_slotOnly (op := 9) (by decide)).2 ⟨k, h⟩

/-- A word that a row selects has the fields of some command of that row (30_encoding.md R82). -/
theorem exists_fieldsOf_of_selects (h : (opcodeRow i).selects w = true) :
    ∃ j, opcodeRow j = opcodeRow i ∧ fieldsOf w j := by
  cases i with
  | expand _ =>
    obtain ⟨k, h⟩ := (selects_slotOnly (op := 1) (by decide)).1 h
    exact ⟨.expand k, rfl, h⟩
  | clear _ =>
    obtain ⟨k, h⟩ := (selects_slotOnly (op := 2) (by decide)).1 h
    exact ⟨.clear k, rfl, h⟩
  | encrypt _ _ _ =>
    obtain ⟨k, src, dst, h⟩ := selects_encrypt.1 h
    exact ⟨.encrypt k src dst, rfl, h⟩
  | b64enc _ _ _ =>
    obtain ⟨src, dst, n, h⟩ := (selects_codec (op := 4) (by decide)).1 h
    exact ⟨.b64enc src dst n, rfl, h⟩
  | b64dec _ _ _ =>
    obtain ⟨src, dst, n, h⟩ := (selects_codec (op := 5) (by decide)).1 h
    exact ⟨.b64dec src dst n, rfl, h⟩
  | hexenc _ _ _ =>
    obtain ⟨src, dst, n, h⟩ := (selects_codec (op := 6) (by decide)).1 h
    exact ⟨.hexenc src dst n, rfl, h⟩
  | hexdec _ _ _ _ =>
    obtain ⟨s, src, dst, n, h⟩ := selects_hexdec.1 h
    obtain ⟨-, -, hs, -⟩ := fields_lt_of_holds h
    obtain rfl | rfl : s = 0 ∨ s = 1 := by omega
    · exact ⟨.hexdec false src dst n, rfl, h⟩
    · exact ⟨.hexdec true src dst n, rfl, h⟩
  | mint _ =>
    obtain ⟨k, h⟩ := (selects_slotOnly (op := 8) (by decide)).1 h
    exact ⟨.mint k, rfl, h⟩
  | validate _ =>
    obtain ⟨k, h⟩ := (selects_slotOnly (op := 9) (by decide)).1 h
    exact ⟨.validate k, rfl, h⟩

/-- The table lists the row of every command and no other. -/
theorem mem_opcodeRows_iff {r : OpcodeRow} : r ∈ opcodeRows ↔ ∃ i, r = opcodeRow i := by
  constructor
  · intro hr
    simp only [opcodeRows, List.mem_cons, List.not_mem_nil, or_false] at hr
    rcases hr with rfl | rfl | rfl | rfl | rfl | rfl | rfl | rfl | rfl <;> exact ⟨_, rfl⟩
  · rintro ⟨i, rfl⟩
    cases i <;> simp [opcodeRows, opcodeRow]

end

/-! ## Illegal words and WAIT -/

section
variable {s : State} {rest : List Event} {w : Word} {i : Instr}

/-- A word that holds a command's fields has one of the nine opcodes, and 0 in the reserved bit and in each field that
its opcode reserves (30_encoding.md R83, R84). -/
theorem reserved_zero_of_fieldsOf (h : fieldsOf w i) :
    (1 ≤ fieldOp w ∧ fieldOp w ≤ 9) ∧ fieldRsv w = 0 ∧
    (fieldOp w ∈ [1, 2, 8, 9] → fieldS w = 0 ∧ fieldSrc w = 0 ∧ fieldDst w = 0 ∧ fieldN w = 0) ∧
    (fieldOp w = 3 → fieldS w = 0 ∧ fieldN w = 0) ∧
    (fieldOp w ∈ [4, 5, 6] → fieldSlot w = 0 ∧ fieldS w = 0) ∧
    (fieldOp w = 7 → fieldSlot w = 0) := by
  cases i <;> obtain ⟨hop, hslot, hs, hrsv, hsrc, hdst, hn⟩ := h <;> simp [*]

/-- An idle block ends an illegal word that is written to CMD with IllegalCommand (30_encoding.md R84). -/
theorem step_illegal_command (he : s.events = wr32 cmdOffset w :: rest) (hl : s.latched = none)
    (hd : ∀ i, decode s.cfg w ≠ .instr i) :
    step s = .next (State.finish { s with events := rest } .illegalCommand false) := by
  obtain ⟨why, hd⟩ := exists_illegal_of_ne_instr hd
  rw [step_write he (by decide) hl, hostWrite_cmd (by decide)]
  simp only [State.runCommand, hd, State.raise]

theorem hostWait_idle (hl : s.latched = none) : s.hostWait = .next (s.deliver s.statusWord) := by
  simp [State.hostWait, State.busy, hl]

theorem hostWait_busy (hl : s.latched ≠ none) :
    s.hostWait = .next { s.deliver s.statusWord with events := .coreTurn :: .waitIdle :: s.events } := by
  simp [State.hostWait, State.busy, Option.isSome_iff_ne_none.2 hl]

end

/-! ## The statements of the family -/

/-- Settles O1: an encoding holds the fields of its command, by which the decoder knows it. -/
theorem decodeOfEncodeIsTheCommand : Obligations.DecodeOfEncodeIsTheCommand :=
  fun _ _ hwf hc => decode_eq_instr_iff_fieldsOf.2 ⟨hc, fieldsOf_encode hwf⟩

/-- Settles O2: the fields of a command are in their ranges, and one word holds them. -/
theorem encodeOfDecodeIsTheWord : Obligations.EncodeOfDecodeIsTheWord := by
  intro cfg w i hd
  obtain ⟨hc, hf⟩ := decode_eq_instr_iff_fieldsOf.1 hd
  exact ⟨wellFormed_of_fieldsOf hf, encode_of_fieldsOf hf, hc⟩

/-- Settles O3: a row selects a word exactly when the word holds the fields of a command of the row, and the decoder
finds one command only. -/
theorem oneRowSelectsEachLegalWord : Obligations.OneRowSelectsEachLegalWord := by
  intro cfg w hc
  have hdec : ∀ {i}, fieldsOf w i → decode cfg w = .instr i := fun hf =>
    decode_eq_instr_iff_fieldsOf.2 ⟨fun _ => hc, hf⟩
  have hsel : ∀ i, decode cfg w = .instr i → (opcodeRow i).selects w = true := fun i hd =>
    selects_of_fieldsOf (decode_eq_instr_iff_fieldsOf.1 hd).2
  refine ⟨⟨fun ⟨i, hd⟩ => ⟨opcodeRow i, mem_opcodeRows_iff.2 ⟨i, rfl⟩, hsel i hd⟩, fun ⟨r, hr, hs⟩ => ?_⟩, hsel,
    fun r hr r' hr' hs hs' => ?_⟩
  · obtain ⟨i, rfl⟩ := mem_opcodeRows_iff.1 hr
    obtain ⟨j, -, hf⟩ := exists_fieldsOf_of_selects hs
    exact ⟨j, hdec hf⟩
  · obtain ⟨i, rfl⟩ := mem_opcodeRows_iff.1 hr
    obtain ⟨i', rfl⟩ := mem_opcodeRows_iff.1 hr'
    obtain ⟨j, hrow, hf⟩ := exists_fieldsOf_of_selects hs
    obtain ⟨j', hrow', hf'⟩ := exists_fieldsOf_of_selects hs'
    obtain rfl : j = j' := Decoded.instr.inj ((hdec hf).symm.trans (hdec hf'))
    exact hrow.symm.trans hrow'

/-- Settles O4: a word with one of these fields holds no command's fields, or a component command's in a build without
them. -/
theorem illegalWordsRaiseIllegalCommand : Obligations.IllegalWordsRaiseIllegalCommand := by
  intro s rest w hl he hbad
  refine step_illegal_command he hl fun i hd => ?_
  obtain ⟨-, hf⟩ := decode_eq_instr_iff_fieldsOf.1 hd
  obtain ⟨hop, hrsv, hslotOnly, hencrypt, hcodec, hhexdec⟩ := reserved_zero_of_fieldsOf hf
  rcases hbad with h0 | h10 | h7 | ⟨hop', hres⟩ | ⟨hop', hres⟩ | ⟨hop', hres⟩ | ⟨hop', hres⟩ | ⟨hlo, hhi, hoff⟩
  · omega
  · omega
  · exact h7 hrsv
  · have := hslotOnly hop'
    omega
  · have := hencrypt hop'
    omega
  · have := hcodec hop'
    omega
  · exact hres (hhexdec hop')
  · exact ne_instr_of_component_opcode hoff hlo hhi hd

/-- Settles O5: a command with one of the opcodes 3 to 7 is a component command; the others do not ask for the
parameter. -/
theorem componentOpcodesGoWithTheParameter : Obligations.ComponentOpcodesGoWithTheParameter :=
  fun _ _ => ⟨fun hoff hlo hhi => exists_illegal_of_ne_instr fun _ => ne_instr_of_component_opcode hoff hlo hhi,
    decode_of_public_opcode true⟩

/-- Settles O6: each of the nine words is the encoding of the command beside it, and the last sets a field that EXPAND
reserves. -/
theorem wordsOfTheManualDecode : Obligations.WordsOfTheManualDecode :=
  ⟨decodeTableWord_of_encode (by decide) (by decide), decodeTableWord_of_encode (by decide) (by decide),
    decodeTableWord_of_encode (by decide) (by decide), decodeTableWord_of_encode (by decide) (by decide),
    decodeTableWord_of_encode (by decide) (by decide), decodeTableWord_of_encode (by decide) (by decide),
    decodeTableWord_of_encode (by decide) (by decide), decodeTableWord_of_encode (by decide) (by decide),
    decodeTableWord_of_encode (by decide) (by decide), by decide⟩

/-- Settles O36: WAIT delivers STATUS, and the state decides whether it is made again. -/
theorem waitReadsStatusUntilIdle : Obligations.WaitReadsStatusUntilIdle := by
  intro s rest he
  rw [step_cons he, State.move]
  exact ⟨fun hl => hostWait_idle hl, fun hl => hostWait_busy hl⟩

end Sys2Proof.Machine
end

section
/-! PROOFS. The family 40_key_schedule.md: the key schedule word by word, what EXPAND and CLEAR do to the slot they
name, and which steps change a slot; and the statements of the family, settled from these. -/

namespace Sys2Proof.Machine

/-! ## The key schedule by words (40_key_schedule.md R101) -/

section
variable (k : Block)

/-- The four words of a round key: each is the word four before it, xored with the word before it, which for the first
is the transformed last word of the round key before. -/
theorem nextRoundKey_columns (b : Block) (r : Nat) :
    (nextRoundKey b r).c0 = b.c0.xor ((subWord (rotWord b.c3)).xor ⟨rcon r, 0, 0, 0⟩) ∧
    (nextRoundKey b r).c1 = b.c1.xor (nextRoundKey b r).c0 ∧
    (nextRoundKey b r).c2 = b.c2.xor (nextRoundKey b r).c1 ∧
    (nextRoundKey b r).c3 = b.c3.xor (nextRoundKey b r).c2 := ⟨rfl, rfl, rfl, rfl⟩

theorem getD_keyExpansion {r : Nat} (hr : r ≤ 10) : (keyExpansion k).toList.getD r .zero = roundKey k r := by
  interval_cases r <;> rfl

/-- The words 4r to 4r + 3 are the columns of round key r. -/
theorem scheduleWord_keyExpansion {r : Nat} (hr : r ≤ 10) :
    scheduleWord (keyExpansion k) (4 * r) = (roundKey k r).c0 ∧
    scheduleWord (keyExpansion k) (4 * r + 1) = (roundKey k r).c1 ∧
    scheduleWord (keyExpansion k) (4 * r + 2) = (roundKey k r).c2 ∧
    scheduleWord (keyExpansion k) (4 * r + 3) = (roundKey k r).c3 := by
  have hword : ∀ j < 4, (4 * r + j) / 4 = r ∧ (4 * r + j) % 4 = j := by omega
  refine ⟨?_, ?_, ?_, ?_⟩
  · simp only [scheduleWord, Nat.mul_div_cancel_left r four_pos, Nat.mul_mod_right, ← getD_keyExpansion k hr]
  · simp only [scheduleWord, hword 1 (by decide), ← getD_keyExpansion k hr]
  · simp only [scheduleWord, hword 2 (by decide), ← getD_keyExpansion k hr]
  · simp only [scheduleWord, hword 3 (by decide), ← getD_keyExpansion k hr]

end

/-! ## A written slot and stored bytes -/

section
variable {s t : State} {k : Nat}

theorem slot_setSlot_same (hk : k < s.cfg.numSlots) (x : KeySlot) : (s.setSlot k x).slot k = x := by
  rw [slot_setSlot, if_pos ⟨rfl, hk.trans_le (numSlots_le_four s.cfg)⟩]

theorem slot_setSlot_of_ne {j : Nat} (hj : j ≠ k) (x : KeySlot) : (s.setSlot k x).slot j = s.slot j := by
  rw [slot_setSlot, if_neg fun h => hj h.1]

/-- KEYV of a present slot that was written is the slot's valid bit. -/
theorem keyv_setSlot_same (hk : k < s.cfg.numSlots) (x : KeySlot) : (s.setSlot k x).keyv k = x.valid := by
  rw [State.keyv, slot_setSlot_same hk, cfg_setSlot, decide_eq_true hk, Bool.true_and]

/-- A byte string written to WM stands there, and nothing else in WM changes. -/
theorem stored_of_wm_eq {a : Nat} {vs : List Byte} (h : t.wm = s.wm.writeBytes a vs) : Stored s t a vs := by
  rw [Stored, h]
  exact ⟨Memory.readBytes_writeBytes vs s.wm a, fun _ => Memory.read_writeBytes_of_outside⟩

/-- What a command that writes a slot and stores changes, field by field. -/
theorem finish_writeWm_setSlot (x : KeySlot) (a : Nat) (vs : List Byte) (e : ErrCode) (r : Bool) :
    ((s.setSlot k x).writeWm a vs).finish e r =
      { s with wm := s.wm.writeBytes a vs, slots := s.slots.setIfInBounds k x, latched := none, result := r,
               err := e.code } := rfl

/-! ## EXPAND and CLEAR (40_key_schedule.md R105, R106) -/

theorem execExpand_unwritten (hk : k < s.cfg.numSlots) (hkey : s.wm.readBytes keyAddr keyLen = none) :
    execExpand k s = .fault (.unwrittenRead keyAddr keyLen) := by
  rw [execExpand, requireSlot_pass hk, withBytes_none hkey]

theorem execExpand_eq {key : List Byte} (hk : k < s.cfg.numSlots)
    (hkey : s.wm.readBytes keyAddr keyLen = some key) : execExpand k s =
      .next (((s.setSlot k (expandedSlot (Block.ofBytes key))).writeWm keyAddr (List.replicate keyLen 0)).finish
        .ok false) :=
  execExpand_next.2 (.inl ⟨hk, key, hkey, rfl⟩)

theorem execClear_eq (hk : k < s.cfg.numSlots) : execClear k s = .next ((s.setSlot k .empty).finish .ok false) :=
  execClear_next.2 (.inl ⟨hk, rfl⟩)

/-! ## Which steps change a slot (40_key_schedule.md R107) -/

theorem writesSlot_eq_some {i : Instr} : writesSlot i = some k ↔ i = .expand k ∨ i = .clear k := by
  cases i <;> simp [writesSlot]

/-- A command that changes a slot is the EXPAND or the CLEAR that names it. -/
theorem ExecEffect.writesSlot_of_slot_ne {i : Instr} (h : ExecEffect i s t) (hne : t.slot k ≠ s.slot k) :
    writesSlot i = some k :=
  Decidable.by_contra fun hk => hne (h.slot_eq hk)

/-- Only a MINT is ever held, and it writes no slot. -/
theorem State.Inv.writesSlot_of_held (h : s.Inv) {i : Instr} (hl : s.latched = some i) : writesSlot i = none := by
  obtain ⟨-, j, _, _, _, rfl, -⟩ := h.heldMint i hl
  rfl

end

/-! ## The statements of the family -/

/-- Settles O8: EXPAND's slot check, its read of KEY, and its two writes, one to the slot and one to KEY. -/
theorem expandBuildsTheScheduleAndZeroesKey : Obligations.ExpandBuildsTheScheduleAndZeroesKey := by
  intro s k
  refine ⟨fun w => decode_eq_instr_iff_fieldsOf, fun hk => requireSlot_fail hk, fun hk => execExpand_unwritten hk,
    fun key hk hkey => ⟨_, execExpand_eq hk hkey, ?_, ?_, ?_, fun j hj => ?_, stored_of_wm_eq rfl⟩⟩
  · rw [finish_writeWm_setSlot, ErrCode.code]
  · rw [slot_finish, slot_writeWm, slot_setSlot_same hk, expandedSlot]
  · rw [keyv_finish, keyv_writeWm, keyv_setSlot_same hk, expandedSlot]
  · rw [slot_finish, slot_writeWm, slot_setSlot_of_ne hj]

/-- Settles O9: CLEAR's slot check, and its one write, of an empty slot. -/
theorem clearDestroysTheSchedule : Obligations.ClearDestroysTheSchedule := by
  intro s k
  refine ⟨fun w => decode_eq_instr_iff_fieldsOf, fun hk => requireSlot_fail hk,
    fun hk => ⟨_, execClear_eq hk, rfl, ?_, ?_, fun j hj => ?_⟩⟩
  · rw [slot_finish, slot_setSlot_same hk, KeySlot.empty]
  · rw [keyv_finish, keyv_setSlot_same hk, KeySlot.empty]
  · rw [slot_finish, slot_setSlot_of_ne hj]

/-- Settles O22: word i = 4 (r + 1) + j is column j of the round key that is made from round key r. -/
theorem keyExpansionFollowsTheWordRecurrence : Obligations.KeyExpansionFollowsTheWordRecurrence := by
  refine fun k => ⟨rfl, fun i hlo hhi => ?_⟩
  obtain ⟨r, hr, hi⟩ : ∃ r ≤ 9,
      i = 4 * (r + 1) ∨ i = 4 * (r + 1) + 1 ∨ i = 4 * (r + 1) + 2 ∨ i = 4 * (r + 1) + 3 := ⟨i / 4 - 1, by omega, by omega⟩
  obtain ⟨old0, old1, old2, old3⟩ := scheduleWord_keyExpansion k (r := r) (by omega)
  obtain ⟨new0, new1, new2, new3⟩ := scheduleWord_keyExpansion k (r := r + 1) (by omega)
  obtain ⟨next0, next1, next2, next3⟩ := nextRoundKey_columns (roundKey k r) (r + 1)
  rcases hi with rfl | rfl | rfl | rfl
  · rw [if_pos (by omega), show 4 * (r + 1) - 4 = 4 * r by omega, show 4 * (r + 1) - 1 = 4 * r + 3 by omega,
      Nat.mul_div_cancel_left _ (by decide), new0, old0, old3]
    exact next0
  · rw [if_neg (by omega), show 4 * (r + 1) + 1 - 4 = 4 * r + 1 by omega, Nat.add_sub_cancel, new1, old1, new0]
    exact next1
  · rw [if_neg (by omega), show 4 * (r + 1) + 2 - 4 = 4 * r + 2 by omega,
      show 4 * (r + 1) + 2 - 1 = 4 * (r + 1) + 1 by omega, new2, old2, new1]
    exact next2
  · rw [if_neg (by omega), show 4 * (r + 1) + 3 - 4 = 4 * r + 3 by omega,
      show 4 * (r + 1) + 3 - 1 = 4 * (r + 1) + 2 by omega, new3, old3, new2]
    exact next3

/-- Settles O50: of the effects a step can have only reset and a command reach a slot, and a command that goes on
after a hold is a MINT. -/
theorem slotsChangeByExpandClearOrResetOnly : Obligations.SlotsChangeByExpandClearOrResetOnly := by
  intro s t k hinv hstep hne
  cases step_effect hstep with
  | quiet | hostStored | illegal => exact (hne rfl).elim
  | command w i rest t hl he hd hx =>
    refine .inr ⟨w, rest, hl, he, ?_⟩
    rcases writesSlot_eq_some.1 ((exec_effect hx).writesSlot_of_slot_ne hne) with rfl | rfl
    · exact .inl hd
    · exact .inr hd
  | resumed i events answers t hl hx =>
    have hi : writesSlot i = some k := (exec_effect hx).writesSlot_of_slot_ne hne
    rw [hinv.writesSlot_of_held hl] at hi
    cases hi
  | reset rest he => exact .inl ⟨rest, he⟩

end Sys2Proof.Machine
end

section
/-! PROOFS. The family 41_cipher.md: the products of MixColumns, the S-box with its affine step undone, and what ENCRYPT
answers check by check; and the statements of the family, settled from these. -/

namespace Sys2Proof.Machine

/-! ## The products of MixColumns (41_cipher.md R121) -/

theorem gfMul_two (a : Byte) : gfMul 2 a = xtime a := by revert a; decide +kernel

theorem gfMul_three (a : Byte) : gfMul 3 a = triple a := by revert a; decide +kernel

/-! ## The S-box (41_cipher.md R123) -/

section
variable (x : Byte)

/-- The affine step of the S-box. -/
def sboxAffine (b : Byte) : Byte :=
  b ^^^ b.rotateLeft 1 ^^^ b.rotateLeft 2 ^^^ b.rotateLeft 3 ^^^ b.rotateLeft 4 ^^^ 0x63

/-- The affine step undone. -/
def sboxUnaffine (y : Byte) : Byte := y.rotateLeft 1 ^^^ y.rotateLeft 3 ^^^ y.rotateLeft 6 ^^^ 0x05

/-- The S-box table with its affine step undone: the byte that the table has for the inverse of x. -/
def sboxInverse : Byte := sboxUnaffine (sbox x)

theorem sboxAffine_sboxUnaffine : sboxAffine (sboxUnaffine x) = x := by revert x; decide +kernel

theorem sbox_eq_sboxAffine : sbox x = sboxAffine (sboxInverse x) := (sboxAffine_sboxUnaffine _).symm

theorem sboxInverse_zero : sboxInverse 0 = 0 := by decide +kernel

/-- The table was made from the inverses of GF(2^8): at each of its 256 places the product is 1. -/
theorem gfMul_sboxInverse : x ≠ 0 → gfMul x (sboxInverse x) = 1 := by revert x; decide +kernel

theorem sboxInverse_involutive : Function.Involutive sboxInverse := by
  unfold Function.Involutive
  decide +kernel

/-- Bytes with one image have one inverse, so they are the same byte. -/
theorem sbox_injective : Function.Injective sbox := fun _ _ h =>
  sboxInverse_involutive.injective (congrArg sboxUnaffine h)

theorem sbox_ne_self_and_ne_complement : sbox x ≠ x ∧ sbox x ≠ x ^^^ 0xFF := by revert x; decide +kernel

end

/-! ## ENCRYPT (41_cipher.md R130)

Each check in its order: the checks before it pass. -/

section
variable {s : State} {k src dst : Nat}

/-- KEYV of a present slot is the slot's valid bit. -/
theorem keyv_of_present (hk : k < s.cfg.numSlots) : s.keyv k = (s.slot k).valid := by
  rw [State.keyv, decide_eq_true hk, Bool.true_and]

/-- What a command that stores changes, field by field. -/
theorem finish_writeWm (a : Nat) (vs : List Byte) (e : ErrCode) (r : Bool) : (s.writeWm a vs).finish e r =
    { s with wm := s.wm.writeBytes a vs, latched := none, result := r, err := e.code } := rfl

theorem execEncrypt_disabled (hc : s.cfg.componentCmds = false) :
    execEncrypt k src dst s = .next (s.finish .illegalCommand false) := requireComponent_fail hc

theorem execEncrypt_absent (hc : s.cfg.componentCmds = true) (hk : s.cfg.numSlots ≤ k) :
    execEncrypt k src dst s = .next (s.finish .badSlot false) := by
  rw [execEncrypt, requireComponent_pass hc, requireSlot_fail hk]

theorem execEncrypt_outside (hc : s.cfg.componentCmds = true) (hk : k < s.cfg.numSlots)
    (hw : 512 < src + 16 ∨ 512 < dst + 16) : execEncrypt k src dst s = .next (s.finish .rangeError false) := by
  rw [execEncrypt, requireComponent_pass hc, requireSlot_pass hk, requireWindows_fail hw]

/-- With the build, the slot and the windows in order, ENCRYPT is its key check and what follows it. -/
theorem execEncrypt_fits (hc : s.cfg.componentCmds = true) (hk : k < s.cfg.numSlots) (hsrc : src + 16 ≤ 512)
    (hdst : dst + 16 ≤ 512) : execEncrypt k src dst s = s.requireKey k fun rk => s.withBytes src 16 fun p =>
      .next ((s.writeWm dst (cipherBytes rk p)).finish .ok false) := by
  rw [execEncrypt, requireComponent_pass hc, requireSlot_pass hk, requireWindows_pass hsrc hdst]

theorem execEncrypt_unkeyed (hc : s.cfg.componentCmds = true) (hk : k < s.cfg.numSlots) (hsrc : src + 16 ≤ 512)
    (hdst : dst + 16 ≤ 512) (hv : s.keyv k = false) :
    execEncrypt k src dst s = .next (s.finish .keyNotValid false) := by
  rw [execEncrypt_fits hc hk hsrc hdst, requireKey_fail (keyv_of_present hk ▸ hv)]

theorem execEncrypt_unwritten (hc : s.cfg.componentCmds = true) (hk : k < s.cfg.numSlots) (hsrc : src + 16 ≤ 512)
    (hdst : dst + 16 ≤ 512) (hv : s.keyv k = true) (hp : s.wm.readBytes src 16 = none) :
    execEncrypt k src dst s = .fault (.unwrittenRead src 16) := by
  rw [execEncrypt_fits hc hk hsrc hdst, requireKey_pass (keyv_of_present hk ▸ hv), withBytes_none hp]

theorem execEncrypt_eq {p : List Byte} (hc : s.cfg.componentCmds = true) (hk : k < s.cfg.numSlots)
    (hsrc : src + 16 ≤ 512) (hdst : dst + 16 ≤ 512) (hv : s.keyv k = true) (hp : s.wm.readBytes src 16 = some p) :
    execEncrypt k src dst s = .next ((s.writeWm dst (cipherBytes (s.slot k).rk p)).finish .ok false) := by
  rw [execEncrypt_fits hc hk hsrc hdst, requireKey_pass (keyv_of_present hk ▸ hv), withBytes_some hp]

end

/-! ## The statements of the family -/

/-- Settles O10: ENCRYPT's checks in their order, its read of the source, and its one write, which follows the read. -/
theorem encryptStoresTheCiphertext : Obligations.EncryptStoresTheCiphertext := by
  intro s k src dst
  refine ⟨fun w => decode_eq_instr_iff_fieldsOf, execEncrypt_disabled, execEncrypt_absent, execEncrypt_outside,
    execEncrypt_unkeyed, execEncrypt_unwritten,
    fun p hc hk hsrc hdst hv hp => ⟨_, execEncrypt_eq hc hk hsrc hdst hv hp, ?_, stored_of_wm_eq rfl⟩⟩
  rw [finish_writeWm, ErrCode.code]

/-- Settles O23: the inverse of x is read off the table by undoing the affine step, and the inverse of the inverse is
x again. -/
theorem sboxIsInverseThenAffine : Obligations.SboxIsInverseThenAffine := by
  refine ⟨fun x => ⟨sboxInverse x, ?_, sbox_eq_sboxAffine x⟩, fun _ _ h => sbox_injective h,
    sbox_ne_self_and_ne_complement, by decide +kernel, by decide +kernel⟩
  by_cases hx : x = 0
  · exact .inl ⟨hx, hx ▸ sboxInverse_zero⟩
  · exact .inr (gfMul_sboxInverse x hx)

/-- Settles O24: the model's doubled and tripled bytes are the products by 2 and by 3. -/
theorem mixColumnsIsTheMatrixProduct : Obligations.MixColumnsIsTheMatrixProduct :=
  ⟨by decide +kernel, fun s => ⟨rfl, fun a => by simp only [gfMul_two, gfMul_three, Column.mix]⟩⟩

/-- Settles O25: one equation of bytes for each of the 16 places of the block. -/
theorem shiftRowsRotatesTheRows : Obligations.ShiftRowsRotatesTheRows := by
  intro s r c hr hc
  interval_cases r <;> interval_cases c <;> rfl

end Sys2Proof.Machine
end

section
/-! PROOFS. The family 42_codec.md: the characters and the groups of base64 and hex, the two codecs as inverses, and what
a codec command answers check by check; and the statements of the family, settled from these. -/

namespace Sys2Proof.Machine

/-- A map leaves a list alone when it leaves every member alone. -/
theorem map_eq_self_iff {α : Type} {f : α → α} {l : List α} : l.map f = l ↔ ∀ x ∈ l, f x = x := by
  simpa using List.map_inj_left (l := l) (f := f) (g := id)

/-! ## Base64 -/

section
variable (al : B64Alphabet)

/-! ### Characters (42_codec.md R141, R143) -/

theorem alphaChar_zero : alphaChar al 0 = 0x41 := rfl

/-- A byte is the character of its sextet, or its sextet is 0. -/
theorem alphaChar_sextet_or_sextet_zero (c : Byte) : alphaChar al (sextet al c) = c ∨ sextet al c = 0 := by
  cases al <;> revert c <;> decide +kernel

/-- The bytes that come back from their sextet are the characters of the alphabet. -/
theorem alphaChar_sextet_eq_self_iff (c : Byte) : alphaChar al (sextet al c) = c ↔ ∃ i, alphaChar al i = c := by
  constructor
  · exact fun h => ⟨_, h⟩
  · rintro ⟨i, rfl⟩
    rw [sextet_alphaChar]

/-- A byte outside the alphabet comes back as 'A'. -/
theorem alphaChar_sextet (c : Byte) :
    alphaChar al (sextet al c) = if alphaChar al (sextet al c) = c then c else 0x41 := by
  split
  case isTrue h => exact h
  case isFalse h => rw [(alphaChar_sextet_or_sextet_zero al c).resolve_left h, alphaChar_zero]

/-! ### Groups (42_codec.md R142, R144) -/

/-- A group is the concatenation of its four sextets. -/
theorem append_sextets (v : BitVec 24) :
    v.extractLsb' 18 6 ++ v.extractLsb' 12 6 ++ v.extractLsb' 6 6 ++ v.extractLsb' 0 6 = v := by
  rw [BitVec.extractLsb'_append_extractLsb'_eq_extractLsb' (by decide),
    BitVec.extractLsb'_append_extractLsb'_eq_extractLsb' (by decide),
    BitVec.extractLsb'_append_extractLsb'_eq_extractLsb' (by decide)]
  exact BitVec.extractLsb'_eq_self

/-- A group is the concatenation of its three bytes. -/
theorem append_bytes (v : BitVec 24) : v.extractLsb' 16 8 ++ v.extractLsb' 8 8 ++ v.extractLsb' 0 8 = v := by
  rw [BitVec.extractLsb'_append_extractLsb'_eq_extractLsb' (by decide),
    BitVec.extractLsb'_append_extractLsb'_eq_extractLsb' (by decide)]
  exact BitVec.extractLsb'_eq_self

theorem groupBytes_append (x0 x1 x2 : Byte) : groupBytes (x0 ++ x1 ++ x2) = [x0, x1, x2] := by
  have h0 : (x0 ++ x1 ++ x2).extractLsb' 16 8 = x0 :=
    (BitVec.extractLsb'_append_eq_of_le (by decide)).trans BitVec.extractLsb'_append_eq_left
  have h1 : (x0 ++ x1 ++ x2).extractLsb' 8 8 = x1 :=
    (BitVec.extractLsb'_append_eq_of_le (by decide)).trans BitVec.extractLsb'_append_eq_right
  have h2 : (x0 ++ x1 ++ x2).extractLsb' 0 8 = x2 := BitVec.extractLsb'_append_eq_right
  exact congr([$h0, $h1, $h2])

theorem groupChars_append (v0 v1 v2 v3 : BitVec 6) :
    groupChars al (v0 ++ v1 ++ v2 ++ v3) = [alphaChar al v0, alphaChar al v1, alphaChar al v2, alphaChar al v3] := by
  have h0 : (v0 ++ v1 ++ v2 ++ v3).extractLsb' 18 6 = v0 := (BitVec.extractLsb'_append_eq_of_le (by decide)).trans <|
    (BitVec.extractLsb'_append_eq_of_le (by decide)).trans BitVec.extractLsb'_append_eq_left
  have h1 : (v0 ++ v1 ++ v2 ++ v3).extractLsb' 12 6 = v1 := (BitVec.extractLsb'_append_eq_of_le (by decide)).trans <|
    (BitVec.extractLsb'_append_eq_of_le (by decide)).trans BitVec.extractLsb'_append_eq_right
  have h2 : (v0 ++ v1 ++ v2 ++ v3).extractLsb' 6 6 = v2 :=
    (BitVec.extractLsb'_append_eq_of_le (by decide)).trans BitVec.extractLsb'_append_eq_right
  have h3 : (v0 ++ v1 ++ v2 ++ v3).extractLsb' 0 6 = v3 := BitVec.extractLsb'_append_eq_right
  exact congr([alphaChar al $h0, alphaChar al $h1, alphaChar al $h2, alphaChar al $h3])

/-! ### Strings of whole groups (42_codec.md R152) -/

theorem b64Dec_groupChars_append (v : BitVec 24) (rest : List Byte) :
    b64Dec al (groupChars al v ++ rest) = groupBytes v ++ b64Dec al rest := by
  simp only [groupChars, List.cons_append, List.nil_append, b64Dec, sextet_alphaChar, append_sextets]

theorem b64Enc_groupBytes_append (v : BitVec 24) (rest : List Byte) :
    b64Enc al (groupBytes v ++ rest) = groupChars al v ++ b64Enc al rest := by
  simp only [groupBytes, List.cons_append, List.nil_append, b64Enc, append_bytes]

theorem b64Dec_b64Enc : ∀ x : List Byte, x.length % 3 = 0 → b64Dec al (b64Enc al x) = x
  | [], _ => rfl
  | x0 :: x1 :: x2 :: rest, h => by
    rw [b64Enc, b64Dec_groupChars_append, groupBytes_append, b64Dec_b64Enc rest (by grind)]
    rfl

/-- Each character comes back as the character of its sextet. -/
theorem b64Enc_b64Dec : ∀ c : List Byte, c.length % 4 = 0 →
    b64Enc al (b64Dec al c) = c.map fun x => alphaChar al (sextet al x)
  | [], _ => rfl
  | c0 :: c1 :: c2 :: c3 :: rest, h => by
    rw [b64Dec, b64Enc_groupBytes_append, groupChars_append, b64Enc_b64Dec rest (by grind)]
    rfl

theorem b64Enc_b64Dec_eq_self_iff {c : List Byte} (h : c.length % 4 = 0) :
    b64Enc al (b64Dec al c) = c ↔ ∀ x ∈ c, ∃ i, alphaChar al i = x := by
  simp only [b64Enc_b64Dec al c h, map_eq_self_iff, alphaChar_sextet_eq_self_iff]

theorem b64Enc_injective {x y : List Byte} (hx : x.length % 3 = 0) (hy : y.length % 3 = 0)
    (h : b64Enc al x = b64Enc al y) : x = y := by
  rw [← b64Dec_b64Enc al x hx, h, b64Dec_b64Enc al y hy]

/-- The padding character '=' is in neither alphabet, and decodes like 'A'. -/
theorem b64Dec_pad : b64Dec al (ascii "====") = b64Dec al (ascii "AAAA") := by
  cases al <;> decide +kernel

end

/-! ## Hex -/

section

/-! ### Characters (42_codec.md R145 to R147) -/

/-- A digit comes back as itself, and a byte that is no digit as '0'. -/
theorem hexDigit_nib (c : Byte) : hexDigit (nib c) = if isHexDigit c = true then c else 0x30 := by
  revert c; decide +kernel

theorem hexDigit_nib_eq_self_iff (c : Byte) : hexDigit (nib c) = c ↔ isHexDigit c = true := by
  constructor
  · exact fun h => h ▸ isHexDigit_hexDigit (nib c)
  · exact fun h => (hexDigit_nib c).trans (if_pos h)

/-! ### Nibbles (00_scope.md R13) -/

theorem hiNibble_append_loNibble (x : Byte) : hiNibble x ++ loNibble x = x :=
  (BitVec.extractLsb'_append_extractLsb'_eq_extractLsb' rfl).trans BitVec.extractLsb'_eq_self

theorem hiNibble_append (u v : BitVec 4) : hiNibble (u ++ v) = u := BitVec.extractLsb'_append_eq_left

theorem loNibble_append (u v : BitVec 4) : loNibble (u ++ v) = v := BitVec.extractLsb'_append_eq_right

/-! ### Strings (42_codec.md R152) -/

theorem hexDecT_hexEnc : ∀ x : List Byte, hexDecT (hexEnc x) = x
  | [] => rfl
  | b :: rest => by
    rw [hexEnc, hexDecT, nib_hexDigit, nib_hexDigit, hiNibble_append_loNibble, hexDecT_hexEnc rest]

theorem all_isHexDigit_hexEnc : ∀ x : List Byte, (hexEnc x).all isHexDigit = true
  | [] => rfl
  | b :: rest => by
    simp only [hexEnc, List.all_cons, isHexDigit_hexDigit, all_isHexDigit_hexEnc rest, Bool.and_self]

theorem hexDecS_hexEnc (x : List Byte) : hexDecS (hexEnc x) = some x :=
  hexDecS_eq_some.2 ⟨all_isHexDigit_hexEnc x, (hexDecT_hexEnc x).symm⟩

/-- Each character comes back as the digit of its nibble. -/
theorem hexEnc_hexDecT : ∀ c : List Byte, c.length % 2 = 0 → hexEnc (hexDecT c) = c.map fun x => hexDigit (nib x)
  | [], _ => rfl
  | c0 :: c1 :: rest, h => by
    rw [hexDecT, hexEnc, hiNibble_append, loNibble_append, hexEnc_hexDecT rest (by grind)]
    rfl

theorem hexEnc_hexDecT_eq_self_iff {c : List Byte} (h : c.length % 2 = 0) :
    hexEnc (hexDecT c) = c ↔ ∀ x ∈ c, isHexDigit x = true := by
  simp only [hexEnc_hexDecT c h, map_eq_self_iff, hexDigit_nib_eq_self_iff]

theorem hexEnc_injective : Function.Injective hexEnc := Function.LeftInverse.injective hexDecT_hexEnc

/-- 'g' is no digit, and decodes like '0'. -/
theorem hexDecT_bad_digits : hexDecT (ascii "gg") = hexDecT (ascii "00") := by decide +kernel

/-- The strict decoder gives what the tolerant one gives when every character is a digit. -/
theorem hexDecS_of_digits {c : List Byte} (h : ∀ x ∈ c, isHexDigit x = true) : hexDecS c = some (hexDecT c) :=
  hexDecS_eq_some.2 ⟨List.all_eq_true.2 h, rfl⟩

/-- One bad character fails the strict decoder (42_codec.md R147). -/
theorem hexDecS_of_bad_digit {c : List Byte} {x : Byte} (hx : x ∈ c) (h : isHexDigit x = false) : hexDecS c = none := by
  rw [hexDecS, if_neg]
  intro hall
  exact Bool.false_ne_true (h.symm.trans (List.all_eq_true.1 hall x hx))

end

/-! ## The codec commands (42_codec.md R148 to R151)

A codec command is the build check and the codec operand form with a conversion `f`: each check in its order, the
checks before it passed. -/

section
variable {s : State} {src inLen dst outLen n : Nat} {f : List Byte → Option (List Byte)}

theorem transform_outside (hw : 512 < src + inLen ∨ 512 < dst + outLen) :
    s.transform src inLen dst outLen f = .next (s.finish .rangeError false) :=
  transform_next.2 (.inr ⟨hw, rfl⟩)

theorem transform_unwritten (hsrc : src + inLen ≤ 512) (hdst : dst + outLen ≤ 512)
    (hx : s.wm.readBytes src inLen = none) :
    s.transform src inLen dst outLen f = .fault (.unwrittenRead src inLen) := by
  rw [State.transform, requireWindows_pass hsrc hdst, withBytes_none hx]

theorem transform_stores {xs ys : List Byte} (hsrc : src + inLen ≤ 512) (hdst : dst + outLen ≤ 512)
    (hx : s.wm.readBytes src inLen = some xs) (hf : f xs = some ys) :
    s.transform src inLen dst outLen f = .next ((s.writeWm dst ys).finish .ok false) :=
  transform_next.2 (.inl ⟨hsrc, hdst, xs, hx, .inl ⟨ys, hf, rfl⟩⟩)

theorem transform_malformed {xs : List Byte} (hsrc : src + inLen ≤ 512) (hdst : dst + outLen ≤ 512)
    (hx : s.wm.readBytes src inLen = some xs) (hf : f xs = none) :
    s.transform src inLen dst outLen f = .next (s.finish .malformedIdentifier false) :=
  transform_next.2 (.inl ⟨hsrc, hdst, xs, hx, .inr ⟨hf, rfl⟩⟩)

/-- Empty windows below 512: nothing is read or written (42_codec.md R148). -/
theorem transform_nothing (hsrc : src ≤ 511) (hdst : dst ≤ 511) (hf : f [] = some []) :
    s.transform src 0 dst 0 f = .next (s.finish .ok false) :=
  transform_stores (by omega) (by omega) rfl hf

/-- The meaning of a codec command whose conversion succeeds on every source that it can read. -/
theorem codecMeaning_of_transform {i : Instr} {g : List Byte → List Byte}
    (hi : exec i s = s.requireComponent (s.transform src inLen dst outLen f))
    (hf : ∀ xs, s.wm.readBytes src inLen = some xs → f xs = some (g xs))
    (hlen : ∀ xs, xs.length = inLen → (g xs).length = outLen) : CodecMeaning i s src inLen dst outLen g := by
  refine ⟨fun hc => ?_, fun hc hw => ?_, fun hc hsrc hdst hx => ?_, fun xs hc hsrc hdst hx =>
    ⟨_, ?_, finish_writeWm _ _ .ok _, hlen xs (Memory.length_readBytes hx), stored_of_wm_eq rfl⟩⟩
  · exact hi.trans (requireComponent_fail hc)
  · rw [hi, requireComponent_pass hc, transform_outside hw, State.finish, ErrCode.code]
  · rw [hi, requireComponent_pass hc, transform_unwritten hsrc hdst hx]
  · rw [hi, requireComponent_pass hc, transform_stores hsrc hdst hx (hf xs hx)]

/-- A codec command with N = 0 changes nothing but the flags. -/
theorem exec_codec_nothing {i : Instr} (hi : exec i s = s.requireComponent (s.transform src 0 dst 0 f))
    (hf : f [] = some []) (hc : s.cfg.componentCmds = true) (hsrc : src ≤ 511) (hdst : dst ≤ 511) :
    exec i s = .next { s with latched := none, result := false, err := 0 } := by
  rw [hi, requireComponent_pass hc, transform_nothing hsrc hdst hf, State.finish, ErrCode.code]

/-- The two forms of HEXDEC as the codec operand form. -/
theorem exec_hexdec (strict : Bool) : exec (.hexdec strict src dst n) s = s.requireComponent
    (s.transform src (2 * n) dst n (if strict then hexDecS else fun c => some (hexDecT c))) := by
  cases strict <;> rfl

theorem length_hexDecT_of_length {c : List Byte} (h : c.length = 2 * n) : (hexDecT c).length = n := by
  rw [length_hexDecT]; omega

/-- A source that is all digits, or that the command cannot read, makes the strict form the tolerant one
(42_codec.md R151). -/
theorem codecMeaning_hexdec_strict (h : ∀ c, s.wm.readBytes src (2 * n) = some c → ∀ x ∈ c, isHexDigit x = true) :
    CodecMeaning (.hexdec true src dst n) s src (2 * n) dst n hexDecT :=
  codecMeaning_of_transform (exec_hexdec true) (fun c hc => hexDecS_of_digits (h c hc))
    fun _ => length_hexDecT_of_length

end

/-! ## The statements of the family -/

/-- Settles O11: B64ENC reads 3N bytes and stores the 4N characters that `length_b64Enc` counts. -/
theorem b64encStoresTheCharacters : Obligations.B64encStoresTheCharacters := by
  intro s src dst n
  refine ⟨fun w => decode_eq_instr_iff_fieldsOf, ?_, ?_⟩
  · exact codecMeaning_of_transform rfl (fun _ _ => rfl) fun x hx => by rw [length_b64Enc]; omega
  · rintro hc hsrc hdst rfl
    exact exec_codec_nothing rfl rfl hc hsrc hdst

/-- Settles O12: B64DEC reads 4N characters and stores the 3N bytes that `length_b64Dec` counts. -/
theorem b64decStoresTheBytes : Obligations.B64decStoresTheBytes := by
  intro s src dst n
  refine ⟨fun w => decode_eq_instr_iff_fieldsOf, ?_, ?_⟩
  · exact codecMeaning_of_transform rfl (fun _ _ => rfl) fun c hc => by rw [length_b64Dec]; omega
  · rintro hc hsrc hdst rfl
    exact exec_codec_nothing rfl rfl hc hsrc hdst

/-- Settles O13: HEXENC reads N bytes and stores the 2N digits that `length_hexEnc` counts. -/
theorem hexencStoresTheDigits : Obligations.HexencStoresTheDigits := by
  intro s src dst n
  refine ⟨fun w => decode_eq_instr_iff_fieldsOf, ?_, ?_⟩
  · exact codecMeaning_of_transform rfl (fun _ _ => rfl) fun x hx => by rw [length_hexEnc, hx]
  · rintro hc hsrc hdst rfl
    exact exec_codec_nothing rfl rfl hc hsrc hdst

/-- Settles O14: the two forms differ in the conversion alone, and the strict one has no outcome on a bad character. -/
theorem hexdecStoresTheBytes : Obligations.HexdecStoresTheBytes := by
  intro s src dst n
  refine ⟨fun w => decode_eq_instr_iff_fieldsOf, fun w => decode_eq_instr_iff_fieldsOf, ?_, ?_, ?_, ?_, ?_⟩
  · exact codecMeaning_of_transform (exec_hexdec false) (fun _ _ => rfl) fun _ => length_hexDecT_of_length
  · intro c hread hdigits
    refine codecMeaning_hexdec_strict fun c' hread' => ?_
    rwa [← Option.some_inj.1 (hread.symm.trans hread')]
  · intro hread
    exact codecMeaning_hexdec_strict fun c hread' => nomatch hread.symm.trans hread'
  · intro c x hread hx hbad
    refine ⟨fun hc => requireComponent_fail hc, fun hc hw => ?_, fun hc hsrc hdst => ?_⟩
    · rw [exec_hexdec, requireComponent_pass hc, transform_outside hw, State.finish, ErrCode.code]
    · rw [exec_hexdec, if_pos rfl, requireComponent_pass hc,
        transform_malformed hsrc hdst hread (hexDecS_of_bad_digit hx hbad), State.finish, ErrCode.code]
  · rintro strict hc hsrc hdst rfl
    exact exec_codec_nothing (exec_hexdec strict) (by cases strict <;> rfl) hc hsrc hdst

/-- Settles O27: the decoders undo the encoders, and the encoders take each decoded character to the character of its
value, which is the character itself exactly inside the alphabet. -/
theorem codecFunctionsObeyTheirLaws : Obligations.CodecFunctionsObeyTheirLaws := by
  intro al
  refine ⟨b64Dec_b64Enc al, fun x => ⟨hexDecT_hexEnc x, hexDecS_hexEnc x⟩, fun c hc => ?_, fun c hc => ?_,
    fun x y hx hy => b64Enc_injective al hx hy, fun x y h => hexEnc_injective h,
    ⟨ascii "====", ascii "AAAA", rfl, rfl, by decide, b64Dec_pad al⟩,
    ⟨ascii "gg", ascii "00", rfl, rfl, by decide, hexDecT_bad_digits⟩⟩
  · refine ⟨b64Enc_b64Dec_eq_self_iff al hc, (b64Enc_b64Dec al c hc).trans ?_⟩
    exact List.map_congr_left fun x _ => alphaChar_sextet al x
  · refine ⟨hexEnc_hexDecT_eq_self_iff hc, (hexEnc_hexDecT c hc).trans ?_⟩
    exact List.map_congr_left fun x _ => hexDigit_nib x

/-- Settles O26: a byte whose sextet is not 0 is the character of that sextet. -/
theorem sextetIsTheIndexOrZero : Obligations.SextetIsTheIndexOrZero := by
  intro al c
  refine ⟨?_, fun hout => ?_⟩
  · rintro i rfl
    exact sextet_alphaChar al i
  · exact (alphaChar_sextet_or_sextet_zero al c).resolve_left fun h => hout _ h.symm

end Sys2Proof.Machine
end

section
/-! PROOFS. The family 43_token_minter.md: slices and overwritten fields, the characters that the identifier extraction
consumes, the token image cut at its field boundaries, and MINT check by check; and the statements of the family,
settled from these. -/

namespace Sys2Proof.Machine

/-! ## Slices and overwritten fields -/

section
variable {x y t field : List Byte} {a b c start i : Nat} {v : Byte}

theorem getElem?_slice : (slice x a b)[i]? = if i < b - a then x[a + i]? else none := by
  rw [slice, List.getElem?_take, List.getElem?_drop]

theorem mem_slice_iff : v ∈ slice x a b ↔ ∃ i, (a ≤ i ∧ i < b) ∧ x[i]? = some v := by
  rw [List.mem_iff_getElem?]
  constructor
  · rintro ⟨j, hj⟩
    rw [getElem?_slice, Option.ite_none_right_eq_some] at hj
    exact ⟨a + j, ⟨by omega, by omega⟩, hj.2⟩
  · rintro ⟨i, ⟨ha, hb⟩, hi⟩
    refine ⟨i - a, ?_⟩
    rw [getElem?_slice, if_pos (by omega), Nat.add_sub_of_le ha, hi]

/-- Two strings have the same slice when they agree inside it. -/
theorem slice_eq_slice_iff : slice x a b = slice y a b ↔ ∀ i, a ≤ i → i < b → x[i]? = y[i]? := by
  constructor
  · intro h i ha hb
    have hi := congrArg (fun z : List Byte => z[i - a]?) h
    simpa only [getElem?_slice, if_pos (show i - a < b - a by omega), Nat.add_sub_of_le ha] using hi
  · intro h
    refine List.ext_getElem? fun j => ?_
    rw [getElem?_slice, getElem?_slice]
    split
    · exact h _ (by omega) (by omega)
    · rfl

theorem slice_append_slice (hab : a ≤ b) (hbc : b ≤ c) : slice x a b ++ slice x b c = slice x a c := by
  obtain ⟨m, rfl⟩ := Nat.exists_eq_add_of_le hab
  obtain ⟨n, rfl⟩ := Nat.exists_eq_add_of_le hbc
  rw [slice, slice, slice, Nat.add_sub_cancel_left, Nat.add_sub_cancel_left, Nat.add_assoc a m n,
    Nat.add_sub_cancel_left, List.take_add, List.drop_drop]

theorem slice_length (x : List Byte) : slice x 0 x.length = x := List.take_length

/-- An overwritten field stands where it was written. -/
theorem slice_overwrite_self (hfit : start + field.length ≤ t.length) (hb : b = start + field.length) :
    slice (overwrite t start field) start b = field := by
  subst hb
  have hpre : (t.take start).length = start := List.length_take_of_le (by omega)
  rw [slice, overwrite, List.append_assoc, List.drop_left' hpre, Nat.add_sub_cancel_left, List.take_left' rfl]

/-- No byte outside an overwritten field changes. -/
theorem getElem?_overwrite_of_outside (hfit : start + field.length ≤ t.length)
    (hi : i < start ∨ start + field.length ≤ i) : (overwrite t start field)[i]? = t[i]? := by
  have hpre : (t.take start).length = start := List.length_take_of_le (by omega)
  have hfield : (t.take start ++ field).length = start + field.length := by rw [List.length_append, hpre]
  rw [overwrite]
  rcases hi with hlt | hge
  · rw [List.append_assoc, List.getElem?_append_left (by omega), List.getElem?_take_of_lt hlt]
  · rw [List.getElem?_append_right (by omega), hfield, List.getElem?_drop, Nat.add_sub_of_le hge]

end

/-! ## The identifier extraction (43_token_minter.md R180) -/

section
variable {ident ident' id8 : List Byte}

/-- The places of the characters that the extraction consumes. -/
def IdConsumes (i : Nat) : Prop := (19 ≤ i ∧ i ≤ 22) ∨ (24 ≤ i ∧ i ≤ 35)

/-- The consumed characters. -/
def idChars (ident : List Byte) : List Byte := slice ident 19 23 ++ slice ident 24 36

theorem length_idChars (hlen : ident.length = 36) : (idChars ident).length = 16 := by
  rw [idChars, List.length_append, length_slice, length_slice, hlen]; rfl

theorem idExtract_eq : idExtract ident = hexDecS (idChars ident) := rfl

theorem mem_idChars_iff {v : Byte} : v ∈ idChars ident ↔ ∃ i, IdConsumes i ∧ ident[i]? = some v := by
  have hlow : ∀ i, 19 ≤ i ∧ i ≤ 22 ↔ 19 ≤ i ∧ i < 23 := by omega
  have hhigh : ∀ i, 24 ≤ i ∧ i ≤ 35 ↔ 24 ≤ i ∧ i < 36 := by omega
  simp only [idChars, List.mem_append, mem_slice_iff, IdConsumes, hlow, hhigh, or_and_right, exists_or]

theorem idChars_congr (h : ∀ i, IdConsumes i → ident[i]? = ident'[i]?) : idChars ident = idChars ident' := by
  have hlow : slice ident 19 23 = slice ident' 19 23 :=
    slice_eq_slice_iff.2 fun i _ _ => h i (.inl ⟨by omega, by omega⟩)
  have hhigh : slice ident 24 36 = slice ident' 24 36 :=
    slice_eq_slice_iff.2 fun i _ _ => h i (.inr ⟨by omega, by omega⟩)
  rw [idChars, idChars, hlow, hhigh]

/-- The strict decoder fails exactly on a character that is no digit (42_codec.md R147). -/
theorem hexDecS_eq_none_iff {c : List Byte} : hexDecS c = none ↔ ∃ x ∈ c, isHexDigit x = false := by
  constructor
  · intro h
    by_contra hgood
    have hdigits : ∀ x ∈ c, isHexDigit x = true := fun x hx =>
      Bool.not_eq_false _ ▸ fun hbad => hgood ⟨x, hx, hbad⟩
    exact nomatch h.symm.trans (hexDecS_of_digits hdigits)
  · rintro ⟨x, hx, hbad⟩
    exact hexDecS_of_bad_digit hx hbad

theorem idExtract_eq_none_iff :
    idExtract ident = none ↔ ∃ i x, IdConsumes i ∧ ident[i]? = some x ∧ isHexDigit x = false := by
  rw [idExtract_eq, hexDecS_eq_none_iff]
  constructor
  · rintro ⟨x, hx, hbad⟩
    obtain ⟨i, hi, hxi⟩ := mem_idChars_iff.1 hx
    exact ⟨i, x, hi, hxi, hbad⟩
  · rintro ⟨i, x, hi, hxi, hbad⟩
    exact ⟨x, mem_idChars_iff.2 ⟨i, hi, hxi⟩, hbad⟩

/-- The extracted bytes spell the consumed characters. -/
theorem hexEnc_of_idExtract (hlen : ident.length = 36) (h : idExtract ident = some id8) :
    hexEnc id8 = idChars ident := by
  obtain ⟨hdigits, rfl⟩ := hexDecS_eq_some.1 h
  have heven : (idChars ident).length % 2 = 0 := by
    rw [length_idChars hlen]
  exact (hexEnc_hexDecT_eq_self_iff heven).2 (List.all_eq_true.1 hdigits)

end

/-! ## Segments in whole groups (43_token_minter.md R171 to R176) -/

section
variable (al : B64Alphabet)

/-- Whole groups are encoded one by one. -/
theorem b64Enc_append : ∀ x y : List Byte, x.length % 3 = 0 → b64Enc al (x ++ y) = b64Enc al x ++ b64Enc al y
  | [], _, _ => rfl
  | x0 :: x1 :: x2 :: rest, y, h => by
    rw [b64Enc, List.append_assoc, ← b64Enc_append rest y (by grind)]
    rfl

/-- A string between two folded quotes. -/
def quoted (c : List Byte) : List Byte := [quote] ++ c ++ [quote]

theorem quoted_injective : Function.Injective quoted := fun _ _ h =>
  List.append_cancel_left (List.append_cancel_right h)

/-- The quoted hex string of 8 bytes is 6 whole groups. -/
theorem length_quoted_hexEnc {x : List Byte} (h : x.length = 8) : (quoted (hexEnc x)).length = 18 := by
  rw [quoted, List.length_append, List.length_append, length_hexEnc, h]; rfl

theorem encF_eq (x : List Byte) : encF al x = b64Enc al (quoted (hexEnc x)) := rfl

theorem b64Dec_encF {x : List Byte} (h : x.length = 8) : b64Dec al (encF al x) = quoted (hexEnc x) := by
  rw [encF_eq, b64Dec_b64Enc]
  rw [length_quoted_hexEnc h]

theorem encF_injective {x y : List Byte} (hx : x.length = 8) (hy : y.length = 8) (h : encF al x = encF al y) :
    x = y :=
  hexEnc_injective <| quoted_injective <| by rw [← b64Dec_encF al hx, h, b64Dec_encF al hy]

/-- The payload's constant part before the SUB field, 9 bytes (43_token_minter.md R174). -/
def payloadToSub : List Byte := [0x7B] ++ ascii " \"sub\": "

/-- The payload's constant part between its two fields, 9 bytes. -/
def payloadToJti : List Byte := ascii ", \"jti\": "

/-- The payload's constant part after the JTI field, 12 bytes. -/
def payloadToEnd : List Byte := ascii ", \"ver\": 1 " ++ [0x7D]

theorem payload_eq (a b : List Byte) :
    payload a b = payloadToSub ++ (quoted a ++ (payloadToJti ++ (quoted b ++ payloadToEnd))) := by
  simp only [payload, payloadToSub, payloadToJti, payloadToEnd, quoted, List.append_assoc]

/-- Every field of the payload starts and ends on a group boundary (43_token_minter.md R177). -/
theorem b64Enc_payload {id8 cn8 : List Byte} (h1 : id8.length = 8) (h2 : cn8.length = 8) :
    b64Enc al (payload (hexEnc id8) (hexEnc cn8)) =
      b64Enc al payloadToSub ++ (encF al id8 ++ (b64Enc al payloadToJti ++ (encF al cn8 ++ b64Enc al payloadToEnd))) := by
  have hsub : payloadToSub.length % 3 = 0 := by decide +kernel
  have hjti : payloadToJti.length % 3 = 0 := by decide +kernel
  have hid : (quoted (hexEnc id8)).length % 3 = 0 := by rw [length_quoted_hexEnc h1]
  have hcn : (quoted (hexEnc cn8)).length % 3 = 0 := by rw [length_quoted_hexEnc h2]
  rw [payload_eq, b64Enc_append al _ _ hsub, b64Enc_append al _ _ hid, b64Enc_append al _ _ hjti,
    b64Enc_append al _ _ hcn, ← encF_eq, ← encF_eq]

/-- What the template holds outside its three fields: the header's segment, the constant parts of the payload's, the
dots and the NUL (43_token_minter.md R172). -/
theorem template_constants :
    slice template 0 57 = b64Enc al header ++ [dot] ++ b64Enc al payloadToSub ∧
    slice template 81 93 = b64Enc al payloadToJti ∧
    slice template 117 134 = b64Enc al payloadToEnd ++ [dot] ∧
    slice template 178 179 = [0] := by
  cases al <;> decide +kernel

end

/-! ## The token image (43_token_minter.md R177) -/

section
variable {al : B64Alphabet} {id8 cn8 tag : List Byte} {i : Nat}

/-- The template with its SUB field written. -/
def subImage (al : B64Alphabet) (id8 : List Byte) : List Byte := overwrite template 57 (encF al id8)

/-- The template with its SUB and JTI fields written. -/
def jtiImage (al : B64Alphabet) (id8 cn8 : List Byte) : List Byte := overwrite (subImage al id8) 93 (encF al cn8)

theorem tokenImage_eq : tokenImage al id8 cn8 tag = overwrite (jtiImage al id8 cn8) 134 (encT al tag) := rfl

theorem subField_fits (h1 : id8.length = 8) : 57 + (encF al id8).length ≤ template.length := by
  rw [length_encF al h1, length_template]; decide

theorem length_subImage (h1 : id8.length = 8) : (subImage al id8).length = 179 :=
  (length_overwrite (subField_fits h1)).trans length_template

theorem jtiField_fits (h1 : id8.length = 8) (h2 : cn8.length = 8) :
    93 + (encF al cn8).length ≤ (subImage al id8).length := by
  rw [length_encF al h2, length_subImage h1]; decide

theorem length_jtiImage (h1 : id8.length = 8) (h2 : cn8.length = 8) : (jtiImage al id8 cn8).length = 179 :=
  (length_overwrite (jtiField_fits h1 h2)).trans (length_subImage h1)

theorem tagField_fits (h1 : id8.length = 8) (h2 : cn8.length = 8) (h3 : tag.length = 16) :
    134 + (encT al tag).length ≤ (jtiImage al id8 cn8).length := by
  rw [length_encT al h3, length_jtiImage h1 h2]; decide

theorem getElem?_subImage (h1 : id8.length = 8) (hi : ¬ (57 ≤ i ∧ i < 81)) :
    (subImage al id8)[i]? = template[i]? :=
  getElem?_overwrite_of_outside (subField_fits h1) (by rw [length_encF al h1]; omega)

theorem getElem?_jtiImage (h1 : id8.length = 8) (h2 : cn8.length = 8) (hi : ¬ (93 ≤ i ∧ i < 117)) :
    (jtiImage al id8 cn8)[i]? = (subImage al id8)[i]? :=
  getElem?_overwrite_of_outside (jtiField_fits h1 h2) (by rw [length_encF al h2]; omega)

theorem getElem?_tokenImage (h1 : id8.length = 8) (h2 : cn8.length = 8) (h3 : tag.length = 16)
    (hi : ¬ (134 ≤ i ∧ i < 178)) : (tokenImage al id8 cn8 tag)[i]? = (jtiImage al id8 cn8)[i]? := by
  rw [tokenImage_eq]
  exact getElem?_overwrite_of_outside (tagField_fits h1 h2 h3) (by rw [length_encT al h3]; omega)

/-- Outside the JTI and TAG fields a token image does not depend on CN8 and the tag. -/
theorem getElem?_tokenImage_eq_subImage (h1 : id8.length = 8) (h2 : cn8.length = 8) (h3 : tag.length = 16)
    (hjti : ¬ (93 ≤ i ∧ i < 117)) (htag : ¬ (134 ≤ i ∧ i < 178)) :
    (tokenImage al id8 cn8 tag)[i]? = (subImage al id8)[i]? :=
  (getElem?_tokenImage h1 h2 h3 htag).trans (getElem?_jtiImage h1 h2 hjti)

/-- Outside its three fields a token image is the template. -/
theorem getElem?_tokenImage_eq_template (h1 : id8.length = 8) (h2 : cn8.length = 8) (h3 : tag.length = 16)
    (hsub : ¬ (57 ≤ i ∧ i < 81)) (hjti : ¬ (93 ≤ i ∧ i < 117)) (htag : ¬ (134 ≤ i ∧ i < 178)) :
    (tokenImage al id8 cn8 tag)[i]? = template[i]? :=
  (getElem?_tokenImage_eq_subImage h1 h2 h3 hjti htag).trans (getElem?_subImage h1 hsub)

theorem subField_tokenImage (h1 : id8.length = 8) (h2 : cn8.length = 8) (h3 : tag.length = 16) :
    slice (tokenImage al id8 cn8 tag) 57 81 = encF al id8 :=
  calc slice (tokenImage al id8 cn8 tag) 57 81
    _ = slice (subImage al id8) 57 81 := slice_eq_slice_iff.2 fun i _ _ =>
      getElem?_tokenImage_eq_subImage h1 h2 h3 (by omega) (by omega)
    _ = encF al id8 := slice_overwrite_self (subField_fits h1) (by rw [length_encF al h1])

theorem jtiField_tokenImage (h1 : id8.length = 8) (h2 : cn8.length = 8) (h3 : tag.length = 16) :
    slice (tokenImage al id8 cn8 tag) 93 117 = encF al cn8 :=
  calc slice (tokenImage al id8 cn8 tag) 93 117
    _ = slice (jtiImage al id8 cn8) 93 117 := slice_eq_slice_iff.2 fun i _ _ =>
      getElem?_tokenImage h1 h2 h3 (by omega)
    _ = encF al cn8 := slice_overwrite_self (jtiField_fits h1 h2) (by rw [length_encF al h2])

theorem tagField_tokenImage (h1 : id8.length = 8) (h2 : cn8.length = 8) (h3 : tag.length = 16) :
    slice (tokenImage al id8 cn8 tag) 134 178 = encT al tag :=
  slice_overwrite_self (tagField_fits h1 h2 h3) (by rw [length_encT al h3])

/-- A string of TOKEN_LEN bytes, cut at the field boundaries. -/
theorem eq_append_slices {t : List Byte} (h : t.length = 179) :
    t = slice t 0 57 ++ slice t 57 81 ++ slice t 81 93 ++ slice t 93 117 ++ slice t 117 134 ++ slice t 134 178 ++
      slice t 178 179 := by
  have hcut : ∀ b c : Nat, b ≤ c → slice t 0 b ++ slice t b c = slice t 0 c := fun b c => slice_append_slice b.zero_le
  rw [hcut 57 81 (by decide), hcut 81 93 (by decide), hcut 93 117 (by decide), hcut 117 134 (by decide),
    hcut 134 178 (by decide), hcut 178 179 (by decide), ← h, slice_length]

/-- The token image is the three base64 segments, the dots and the NUL: cut at its field boundaries, its fields are the
encoded fields and the rest is the template's constants. -/
theorem tokenImage_eq_segments (h1 : id8.length = 8) (h2 : cn8.length = 8) (h3 : tag.length = 16) :
    tokenImage al id8 cn8 tag =
      b64Enc al header ++ [dot] ++ b64Enc al (payload (hexEnc id8) (hexEnc cn8)) ++ [dot] ++ encT al tag ++ [0] := by
  obtain ⟨hhead, hmid, hend, hnul⟩ := template_constants al
  have hconst : ∀ a b, (∀ i, a ≤ i → i < b → ¬ (57 ≤ i ∧ i < 81) ∧ ¬ (93 ≤ i ∧ i < 117) ∧ ¬ (134 ≤ i ∧ i < 178)) →
      slice (tokenImage al id8 cn8 tag) a b = slice template a b := fun a b hout =>
    slice_eq_slice_iff.2 fun i ha hb =>
      have ⟨hsub, hjti, htag⟩ := hout i ha hb
      getElem?_tokenImage_eq_template h1 h2 h3 hsub hjti htag
  rw [eq_append_slices (length_tokenImage al h1 h2 h3), subField_tokenImage h1 h2 h3, jtiField_tokenImage h1 h2 h3,
    tagField_tokenImage h1 h2 h3, hconst 0 57 (by omega), hconst 81 93 (by omega), hconst 117 134 (by omega),
    hconst 178 179 (by omega), hhead, hmid, hend, hnul, b64Enc_payload al h1 h2]
  simp only [List.append_assoc]

end

/-! ## MINT (43_token_minter.md R182)

Each check in its order: the checks before it pass. -/

section
variable {s t : State} {k i : Nat} {ident id8 cap : List Byte} {nonce nonce' : Nonce} {rest : List EntropyAnswer}

theorem execMint_unkeyed (hk : k < s.cfg.numSlots) (hv : s.keyv k = false) :
    execMint k s = .next (s.finish .keyNotValid false) := by
  rw [execMint, requireSlot_pass hk, requireKey_fail (keyv_of_present hk ▸ hv)]

theorem execMint_unwritten_ident (hk : k < s.cfg.numSlots) (hv : s.keyv k = true)
    (hident : s.wm.readBytes idAddr idLen = none) : execMint k s = .fault (.unwrittenRead idAddr idLen) := by
  rw [execMint, requireSlot_pass hk, requireKey_pass (keyv_of_present hk ▸ hv), withBytes_none hident]

theorem execMint_malformed (hk : k < s.cfg.numSlots) (hv : s.keyv k = true)
    (hident : s.wm.readBytes idAddr idLen = some ident) (hbad : idExtract ident = none) :
    execMint k s = .next (s.finish .malformedIdentifier false) := by
  rw [execMint, requireSlot_pass hk, requireKey_pass (keyv_of_present hk ▸ hv), withBytes_some hident]
  simp only [hbad, State.raise]

theorem execMint_unwritten_cap (hk : k < s.cfg.numSlots) (hv : s.keyv k = true)
    (hident : s.wm.readBytes idAddr idLen = some ident) (hid8 : idExtract ident = some id8)
    (hcap : s.wm.readBytes capAddr 1 = none) : execMint k s = .fault (.unwrittenRead capAddr 1) := by
  rw [execMint, requireSlot_pass hk, requireKey_pass (keyv_of_present hk ▸ hv), withBytes_some hident]
  simp only [hid8]
  rw [withBytes_none hcap]

/-- A ready MINT is its entropy request. -/
theorem MintReady.execMint_eq (hr : MintReady s k ident id8 cap) : execMint k s =
    s.requestEntropy (.mint k) (fun s' nonce => .next (mintToken (s.slot k).rk id8 cap s' nonce)) := by
  obtain ⟨hk, hv, hident, hid8, hcap⟩ := hr
  exact Machine.execMint_eq hk hv hident hid8 hcap

theorem MintReady.length_id8 (hr : MintReady s k ident id8 cap) : id8.length = 8 := by
  obtain ⟨-, -, hident, hid8, -⟩ := hr
  exact length_idExtract (Memory.length_readBytes hident) hid8

theorem MintReady.length_cn8 (hr : MintReady s k ident id8 cap) (nonce : Nonce) :
    (cap ++ nonce.toBytes).length = 8 := by
  obtain ⟨-, -, -, -, hcap⟩ := hr
  rw [List.length_append, Memory.length_readBytes hcap]; rfl

/-- The SUB field's text: the consumed characters of the identifier. -/
theorem MintReady.hexEnc_id8 (hr : MintReady s k ident id8 cap) : hexEnc id8 = idChars ident := by
  obtain ⟨-, -, hident, hid8, -⟩ := hr
  exact hexEnc_of_idExtract (Memory.length_readBytes hident) hid8

theorem execMint_wait (hr : MintReady s k ident id8 cap) (he : s.entropy = .wait :: rest) :
    execMint k s = .next (State.hold { s with entropy := rest } (.mint k)) := by
  rw [hr.execMint_eq, requestEntropy_next]
  exact .inr (.inl ⟨rest, he, rfl⟩)

theorem execMint_fail (hr : MintReady s k ident id8 cap) (he : s.entropy = .fail :: rest) :
    execMint k s = .next ((s.requestAnswered rest).finish .insufficientRandomness false) := by
  rw [hr.execMint_eq, requestEntropy_next]
  exact .inr (.inr (.inl ⟨rest, he, rfl⟩))

/-- The token over id8, cap and a nonce under a schedule (43_token_minter.md R181, R182). -/
def mintedToken (al : B64Alphabet) (rk : RoundKeys) (id8 cap : List Byte) (nonce : Nonce) : List Byte :=
  tokenImage al id8 (cap ++ nonce.toBytes) (cipherBytes rk (id8 ++ cap ++ nonce.toBytes))

theorem execMint_bytes (hr : MintReady s k ident id8 cap) (he : s.entropy = .bytes nonce :: rest) :
    execMint k s = .next (((s.requestAnswered rest).writeWm tokAddr
      (mintedToken s.cfg.alphabet (s.slot k).rk id8 cap nonce)).finish .ok false) := by
  rw [hr.execMint_eq, requestEntropy_next]
  exact .inr (.inr (.inr ⟨nonce, rest, he, rfl⟩))

theorem MintReady.length_mintedToken (hr : MintReady s k ident id8 cap) (al : B64Alphabet) (rk : RoundKeys)
    (nonce : Nonce) : (mintedToken al rk id8 cap nonce).length = 179 :=
  length_tokenImage al hr.length_id8 (hr.length_cn8 nonce) (length_cipherBytes _ _)

/-- Outside the JTI and TAG fields the token does not depend on the nonce. -/
theorem MintReady.getElem?_mintedToken (hr : MintReady s k ident id8 cap) {al : B64Alphabet} {rk : RoundKeys}
    (hjti : ¬ (93 ≤ i ∧ i < 117)) (htag : ¬ (134 ≤ i ∧ i < 178)) :
    (mintedToken al rk id8 cap nonce)[i]? = (subImage al id8)[i]? :=
  getElem?_tokenImage_eq_subImage hr.length_id8 (hr.length_cn8 nonce) (length_cipherBytes _ _) hjti htag

theorem MintReady.subField_mintedToken (hr : MintReady s k ident id8 cap) {al : B64Alphabet} {rk : RoundKeys} :
    slice (mintedToken al rk id8 cap nonce) 57 81 = encF al id8 :=
  subField_tokenImage hr.length_id8 (hr.length_cn8 nonce) (length_cipherBytes _ _)

theorem MintReady.jtiField_mintedToken (hr : MintReady s k ident id8 cap) {al : B64Alphabet} {rk : RoundKeys} :
    slice (mintedToken al rk id8 cap nonce) 93 117 = encF al (cap ++ nonce.toBytes) :=
  jtiField_tokenImage hr.length_id8 (hr.length_cn8 nonce) (length_cipherBytes _ _)

/-- A ready MINT that gets its nonce stores the token's 179 bytes and no other. -/
theorem MintReady.stored (hr : MintReady s k ident id8 cap) (he : s.entropy = .bytes nonce :: rest)
    (hx : exec (.mint k) s = .next t) :
    t.wm.readBytes 0x100 179 = some (mintedToken s.cfg.alphabet (s.slot k).rk id8 cap nonce) ∧
    ∀ b, b < 0x100 ∨ 0x100 + 179 ≤ b → t.wm.read b = s.wm.read b := by
  have hnext := Host.Outcome.next.inj (hx.symm.trans (execMint_bytes hr he))
  have hstored : Stored s t tokAddr (mintedToken s.cfg.alphabet (s.slot k).rk id8 cap nonce) :=
    stored_of_wm_eq (by rw [hnext, wm_finish, wm_writeWm, wm_requestAnswered])
  rwa [Stored, hr.length_mintedToken] at hstored

theorem Nonce.toBytes_injective : Function.Injective Nonce.toBytes := by
  rintro ⟨⟩ ⟨⟩ h
  simpa [Nonce.toBytes] using h

/-- The JTI fields of two tokens agree exactly when the nonces do (43_token_minter.md R184). -/
theorem MintReady.encF_cn8_eq_iff (hr : MintReady s k ident id8 cap) (al : B64Alphabet) :
    encF al (cap ++ nonce.toBytes) = encF al (cap ++ nonce'.toBytes) ↔ nonce = nonce' := by
  constructor
  · intro h
    have hcn := encF_injective al (hr.length_cn8 nonce) (hr.length_cn8 nonce') h
    exact Nonce.toBytes_injective (List.append_cancel_left hcn)
  · rintro rfl; rfl

end

/-! ## The statements of the family -/

/-- Settles O28: the extraction is the strict decoder on the sixteen consumed characters. -/
theorem idExtractExaminesSixteenCharacters : Obligations.IdExtractExaminesSixteenCharacters := by
  intro ident hlen
  refine ⟨idExtract_eq_none_iff, fun id8 h => ⟨length_idExtract hlen h, hexEnc_of_idExtract hlen h⟩,
    fun ident' _ hagree => ?_⟩
  rw [idExtract_eq, idExtract_eq, idChars_congr hagree]

/-- Settles O29: the segments are the image cut at its field boundaries, which are group boundaries. -/
theorem tokenImageIsTheThreeSegments : Obligations.TokenImageIsTheThreeSegments := by
  intro al id8 cn8 tag h1 h2 h3
  exact ⟨tokenImage_eq_segments h1 h2 h3, subField_tokenImage h1 h2 h3, jtiField_tokenImage h1 h2 h3,
    tagField_tokenImage h1 h2 h3, fun _ => getElem?_tokenImage_eq_template h1 h2 h3⟩

/-- Settles O15: MINT's checks in their order, and what it does on each answer of the source. -/
theorem mintWritesTheToken : Obligations.MintWritesTheToken := by
  intro s k
  refine ⟨fun w => decode_eq_instr_iff_fieldsOf, fun hk => requireSlot_fail hk, execMint_unkeyed,
    execMint_unwritten_ident, fun ident => execMint_malformed, fun ident id8 => execMint_unwritten_cap,
    fun ident id8 cap hr => ⟨fun rest he => ⟨_, execMint_wait hr he, rfl⟩, fun rest he => execMint_fail hr he,
      fun nonce rest he => ⟨_, execMint_bytes hr he, ?_, hr.length_mintedToken _ _ nonce, stored_of_wm_eq ?_⟩⟩⟩
  · rw [finish_writeWm, State.requestAnswered, ErrCode.code]
  · rw [wm_finish, wm_writeWm, wm_requestAnswered, mintedToken]

/-- Settles O31: the two tokens are images of one ID8, and their JTI fields encode their nonces. -/
theorem mintsOfOnePairDifferByNonceAlone : Obligations.MintsOfOnePairDifferByNonceAlone := by
  intro s s' t t' k ident id8 cap nonce nonce' rest rest' hr hr' hslot hal he he' hx hx'
  obtain ⟨hread, hframe⟩ := hr.stored he hx
  obtain ⟨hread', hframe'⟩ := hr'.stored he' hx'
  rw [← hslot, ← hal] at hread'
  refine ⟨fun b hb => ⟨hframe b hb, hframe' b hb⟩, _, _, hread, hread', fun i hjti htag => ?_, ?_, ?_, ?_⟩
  · exact (hr.getElem?_mintedToken hjti htag).trans (hr.getElem?_mintedToken hjti htag).symm
  · rw [hr.jtiField_mintedToken, hr.jtiField_mintedToken, hr.encF_cn8_eq_iff]
  · rintro rfl; rfl
  · rw [hr.subField_mintedToken, b64Dec_encF _ hr.length_id8, hr.hexEnc_id8, quoted, idChars]

end Sys2Proof.Machine
end

section
/-! PROOFS. The family 44_token_validator.md: the field windows of a token that stands in TOKBUF, the verdict as a
statement about the decoded fields, and the field decoders as inverses of the minter's encoders; and the statements of
the family, settled from these. -/

namespace Sys2Proof.Machine

/-! ## Windows inside a window -/

section
variable {m : Memory} {a n b c : Nat} {vs : List Byte}

/-- A window reads as the bytes that stand at its addresses. -/
theorem Memory.readBytes_eq_some_iff : m.readBytes a n = some vs ↔
    vs.length = n ∧ ∀ i < n, m.read (a + i) = vs[i]? := by
  induction n generalizing a vs with
  | zero => simp [Memory.readBytes, @eq_comm _ [] vs]
  | succ n ih =>
    rw [Memory.readBytes_succ]
    constructor
    · rintro ⟨v, rest, rfl, hv, hrest⟩
      obtain ⟨hlen, hread⟩ := ih.1 hrest
      refine ⟨congrArg (· + 1) hlen, fun i hi => ?_⟩
      cases i with
      | zero => exact hv
      | succ i =>
        rw [show a + (i + 1) = a + 1 + i by omega]
        exact hread i (by omega)
    · rintro ⟨hlen, hread⟩
      obtain ⟨v, rest, rfl⟩ := List.exists_cons_of_length_eq_add_one hlen
      refine ⟨v, rest, rfl, hread 0 (by omega), ih.2 ⟨Nat.succ.inj hlen, fun i hi => ?_⟩⟩
      rw [show a + 1 + i = a + (i + 1) by omega]
      exact hread (i + 1) (by omega)

/-- A part of a window reads as that slice of the window's bytes. -/
theorem Memory.readBytes_slice (h : m.readBytes a n = some vs) (hc : c ≤ n) :
    m.readBytes (a + b) (c - b) = some (slice vs b c) := by
  obtain ⟨hlen, hread⟩ := Memory.readBytes_eq_some_iff.1 h
  refine Memory.readBytes_eq_some_iff.2 ⟨by rw [length_slice]; omega, fun i hi => ?_⟩
  rw [Nat.add_assoc, hread (b + i) (by omega), getElem?_slice, if_pos hi]

end

/-! ## The field decoders undo the field encoders (43_token_minter.md R176, 44_token_validator.md R201) -/

section
variable {al : B64Alphabet} {id8 cn8 tag : List Byte} {rk : RoundKeys}

/-- The decoders pass over the folded quote before a field's hex string and drop what follows it. -/
theorem slice_after_quote {x y : List Byte} {b : Nat} (hb : x.length = b - 1) :
    slice ([quote] ++ (x ++ y)) 1 b = x := by
  rw [slice]
  exact List.take_left' hb

theorem decF_encF {x : List Byte} (h : x.length = 8) : decF al (encF al x) = x := by
  rw [decF, b64Dec_encF al h, quoted, List.append_assoc, slice_after_quote (by rw [length_hexEnc, h]), hexDecT_hexEnc]

theorem decT_encT {x : List Byte} (h : x.length = 16) : decT al (encT al x) = x := by
  have hdec : b64Dec al (encT al x) = [quote] ++ (hexEnc x ++ []) := by
    rw [encT, b64Dec_b64Enc, List.append_nil]
    rw [List.length_append, length_hexEnc, h]; rfl
  rw [decT, hdec, slice_after_quote (by rw [length_hexEnc, h]), hexDecT_hexEnc]

/-- A token image decodes to the fields it was made of. -/
theorem decodeToken_tokenImage (h1 : id8.length = 8) (h2 : cn8.length = 8) (h3 : tag.length = 16) :
    decodeToken al (tokenImage al id8 cn8 tag) = (id8, cn8, tag) := by
  rw [decodeToken, subField_tokenImage h1 h2 h3, jtiField_tokenImage h1 h2 h3, tagField_tokenImage h1 h2 h3,
    decF_encF h1, decF_encF h2, decT_encT h3]

/-! ## The verdict on the decoded fields (44_token_validator.md R200, R205) -/

/-- The decoded TAG field is the tag recomputed from the decoded SUB and JTI fields. -/
def FieldsAuthentic (rk : RoundKeys) (f : List Byte × List Byte × List Byte) : Prop :=
  cipherBytes rk (f.1 ++ f.2.1) = f.2.2

/-- The verdict depends on the three field windows through what they decode to. -/
theorem authentic_iff {sub jti tag : List Byte} :
    authentic al rk sub jti tag = true ↔ FieldsAuthentic rk (decF al sub, decF al jti, decT al tag) := tagEq_iff _ _

/-- Under one SUB and JTI only one tag is authentic. -/
theorem FieldsAuthentic.not_of_tag_ne {f g : List Byte × List Byte × List Byte} (hf : FieldsAuthentic rk f)
    (hsub : g.1 = f.1) (hjti : g.2.1 = f.2.1) (htag : g.2.2 ≠ f.2.2) : ¬ FieldsAuthentic rk g := by
  intro hg
  rw [FieldsAuthentic, hsub, hjti] at hg
  exact htag (hg.symm.trans hf)

end

/-! ## VALIDATE (44_token_validator.md R200)

Each check in its order: the checks before it pass. -/

section
variable {s t : State} {k : Nat} {sub jti tag tok : List Byte}

theorem execValidate_unkeyed (hk : k < s.cfg.numSlots) (hv : s.keyv k = false) :
    execValidate k s = .next (s.finish .keyNotValid false) := by
  rw [execValidate, requireSlot_pass hk, requireKey_fail (keyv_of_present hk ▸ hv)]

/-- The fault names the first field window with an unwritten byte. -/
theorem execValidate_unwritten (hk : k < s.cfg.numSlots) (hv : s.keyv k = true)
    (h : s.wm.readBytes (tokAddr + subStart) fieldLen = none ∨ s.wm.readBytes (tokAddr + jtiStart) fieldLen = none ∨
      s.wm.readBytes (tokAddr + tagStart) tagFieldLen = none) :
    ∃ a n, execValidate k s = .fault (.unwrittenRead a n) ∧ (a, n) ∈ readWindows (.validate k) ∧
      s.wm.readBytes a n = none := by
  rw [execValidate, requireSlot_pass hk, requireKey_pass (keyv_of_present hk ▸ hv)]
  cases hsub : s.wm.readBytes (tokAddr + subStart) fieldLen with
  | none => exact ⟨_, _, withBytes_none hsub, .head _, hsub⟩
  | some sub =>
    rw [withBytes_some hsub]
    cases hjti : s.wm.readBytes (tokAddr + jtiStart) fieldLen with
    | none => exact ⟨_, _, withBytes_none hjti, .tail _ (.head _), hjti⟩
    | some jti =>
      have htag : s.wm.readBytes (tokAddr + tagStart) tagFieldLen = none := by
        simpa only [hsub, hjti, reduceCtorEq, false_or] using h
      rw [withBytes_some hjti]
      exact ⟨_, _, withBytes_none htag, .tail _ (.tail _ (.head _)), htag⟩

theorem verdict_eq_accept_iff {ok : Bool} : s.verdict ok = s.finish .ok true ↔ ok = true := by
  constructor
  · intro h
    rw [verdict_eq] at h
    exact congrArg State.result h
  · rintro rfl; rfl

theorem verdict_eq_reject {ok : Bool} (h : ¬ ok = true) : s.verdict ok = s.finish .tagMismatch false := by
  rw [Bool.eq_false_of_not_eq_true h]; rfl

/-- VALIDATE accepts exactly the authentic fields. -/
theorem execValidate_accept_iff (hk : k < s.cfg.numSlots) (hv : s.keyv k = true)
    (hsub : s.wm.readBytes (tokAddr + subStart) fieldLen = some sub)
    (hjti : s.wm.readBytes (tokAddr + jtiStart) fieldLen = some jti)
    (htag : s.wm.readBytes (tokAddr + tagStart) tagFieldLen = some tag) :
    execValidate k s = .next (s.finish .ok true) ↔
      FieldsAuthentic (s.slot k).rk (decF s.cfg.alphabet sub, decF s.cfg.alphabet jti, decT s.cfg.alphabet tag) := by
  rw [execValidate_eq hk (keyv_of_present hk ▸ hv) hsub hjti htag, Host.Outcome.next.injEq, verdict_eq_accept_iff,
    authentic_iff]

/-- VALIDATE rejects all other fields with TagMismatch. -/
theorem execValidate_reject (hk : k < s.cfg.numSlots) (hv : s.keyv k = true)
    (hsub : s.wm.readBytes (tokAddr + subStart) fieldLen = some sub)
    (hjti : s.wm.readBytes (tokAddr + jtiStart) fieldLen = some jti)
    (htag : s.wm.readBytes (tokAddr + tagStart) tagFieldLen = some tag)
    (hbad : ¬ FieldsAuthentic (s.slot k).rk
      (decF s.cfg.alphabet sub, decF s.cfg.alphabet jti, decT s.cfg.alphabet tag)) :
    execValidate k s = .next (s.finish .tagMismatch false) := by
  rw [execValidate_eq hk (keyv_of_present hk ▸ hv) hsub hjti htag, verdict_eq_reject (authentic_iff.not.2 hbad)]

/-- The three field windows of a token in TOKBUF (43_token_minter.md R171). -/
theorem readBytes_tokenFields {m : Memory} (h : m.readBytes tokAddr tokLen = some tok) :
    m.readBytes (tokAddr + subStart) fieldLen = some (slice tok 57 81) ∧
    m.readBytes (tokAddr + jtiStart) fieldLen = some (slice tok 93 117) ∧
    m.readBytes (tokAddr + tagStart) tagFieldLen = some (slice tok 134 178) :=
  ⟨Memory.readBytes_slice (b := 57) (c := 81) h (by decide), Memory.readBytes_slice (b := 93) (c := 117) h (by decide),
    Memory.readBytes_slice (b := 134) (c := 178) h (by decide)⟩

/-- A token in TOKBUF is accepted exactly when its decoded fields are authentic. -/
theorem execValidate_token_accept_iff (hk : k < s.cfg.numSlots) (hv : s.keyv k = true)
    (htok : s.wm.readBytes tokAddr tokLen = some tok) :
    execValidate k s = .next (s.finish .ok true) ↔
      FieldsAuthentic (s.slot k).rk (decodeToken s.cfg.alphabet tok) := by
  obtain ⟨hsub, hjti, htag⟩ := readBytes_tokenFields htok
  exact execValidate_accept_iff hk hv hsub hjti htag

theorem execValidate_token_reject (hk : k < s.cfg.numSlots) (hv : s.keyv k = true)
    (htok : s.wm.readBytes tokAddr tokLen = some tok)
    (hbad : ¬ FieldsAuthentic (s.slot k).rk (decodeToken s.cfg.alphabet tok)) :
    execValidate k s = .next (s.finish .tagMismatch false) := by
  obtain ⟨hsub, hjti, htag⟩ := readBytes_tokenFields htok
  exact execValidate_reject hk hv hsub hjti htag hbad

/-! ## A minted token under VALIDATE (44_token_validator.md R204) -/

/-- The fields of a minted token are authentic under the schedule it was minted with. -/
theorem MintReady.fieldsAuthentic_mintedToken {ident id8 cap : List Byte} (hr : MintReady s k ident id8 cap)
    (al : B64Alphabet) (rk : RoundKeys) (nonce : Nonce) :
    FieldsAuthentic rk (decodeToken al (mintedToken al rk id8 cap nonce)) := by
  rw [mintedToken, decodeToken_tokenImage hr.length_id8 (hr.length_cn8 nonce) (length_cipherBytes _ _),
    FieldsAuthentic, List.append_assoc]

/-- A MINT that ends with ERR 0 was ready and got its nonce. -/
theorem mint_ready_of_success (h : exec (.mint k) s = .next t) (hl : t.latched = none) (he : t.err = 0) :
    ∃ ident id8 cap nonce rest, MintReady s k ident id8 cap ∧ s.entropy = .bytes nonce :: rest := by
  rcases execMint_next h with ⟨e, hmem, rfl⟩ | ⟨hk, hv, ident, id8, cap, hident, hid8, hcap, hreq⟩
  · have hcode : ∀ e ∈ [ErrCode.badSlot, .keyNotValid, .malformedIdentifier], e.code ≠ 0 := by decide
    exact (hcode e hmem he).elim
  · rcases requestEntropy_next.1 hreq with ⟨-, rfl⟩ | ⟨rest, -, rfl⟩ | ⟨rest, -, rfl⟩ | ⟨nonce, rest, hbytes, -⟩
    · exact nomatch hl
    · exact nomatch hl
    · exact absurd (show ErrCode.insufficientRandomness.code = 0 from he) (by decide)
    · exact ⟨ident, id8, cap, nonce, rest, ⟨hk, hv, hident, hid8, hcap⟩, hbytes⟩

/-- A ready MINT that gets its nonce changes neither the parameters nor a slot. -/
theorem MintReady.keeps_cfg_slot {ident id8 cap : List Byte} {nonce : Nonce} {rest : List EntropyAnswer}
    (hr : MintReady s k ident id8 cap) (he : s.entropy = .bytes nonce :: rest) (h : exec (.mint k) s = .next t) :
    t.cfg = s.cfg ∧ t.slot k = s.slot k := by
  obtain rfl := Host.Outcome.next.inj (h.symm.trans (execMint_bytes hr he))
  exact ⟨rfl, rfl⟩

end

/-! ## The statements of the family -/

/-- Settles O16: the checks in their order, and the verdict as an equivalence. -/
theorem validateComparesTheTags : Obligations.ValidateComparesTheTags := by
  intro s k
  exact ⟨fun w => decode_eq_instr_iff_fieldsOf, fun hk => requireSlot_fail hk, execValidate_unkeyed,
    execValidate_unwritten, fun sub jti tag hk hv hsub hjti htag =>
      ⟨(execValidate_accept_iff hk hv hsub hjti htag).2, execValidate_reject hk hv hsub hjti htag⟩⟩

/-- Settles O30: TOKBUF still holds the minted token, whose fields are authentic under the slot's schedule. -/
theorem mintedTokenValidates : Obligations.MintedTokenValidates := by
  intro s t u k h hl he hcfg hslot htokbuf
  obtain ⟨ident, id8, cap, nonce, rest, hr, hbytes⟩ := mint_ready_of_success h hl he
  obtain ⟨hread, -⟩ := hr.stored hbytes h
  obtain ⟨hcfgMint, hslotMint⟩ := hr.keeps_cfg_slot hbytes h
  have hcfgKept : s.cfg = u.cfg := (hcfg.trans hcfgMint).symm
  have hslotKept : s.slot k = u.slot k := (hslot.trans hslotMint).symm
  have hauth := hr.fieldsAuthentic_mintedToken s.cfg.alphabet (s.slot k).rk nonce
  obtain ⟨hk, hv, -, -, -⟩ := hr
  rw [hcfgKept] at hk hauth hread
  rw [hslotKept] at hv hauth hread
  exact (execValidate_token_accept_iff hk ((keyv_of_present hk).trans hv)
    ((Memory.readBytes_congr htokbuf).trans hread)).2 hauth

/-- Settles O32: the verdict on either token is that on its decoded fields, and one tag at most goes with SUB and
JTI. -/
theorem decodedFieldsDecideModifiedTokens : Obligations.DecodedFieldsDecideModifiedTokens := by
  intro s m k tok tok' hk hv htok htok' hvalid
  have hauth := (execValidate_token_accept_iff hk hv htok).1 hvalid
  refine ⟨fun hsame => ?_, fun hsub hjti htag => ?_⟩
  · exact (execValidate_token_accept_iff (s := { s with wm := m }) hk hv htok').2 (hsame ▸ hauth)
  · exact execValidate_token_reject (s := { s with wm := m }) hk hv htok' (hauth.not_of_tag_ne hsub hjti htag)

end Sys2Proof.Machine
end

section
/-! PROOFS. The family 60_exceptions.md: the codes and the RESULT a command ends with, the held MINT on each answer of
the source, and runs of steps; and the statements of the family, settled from these. -/

namespace Sys2Proof.Machine

/-! ## How a command ends (60_exceptions.md R221) -/

section
variable {s t : State} {i : Instr} {k : Nat}

/-- Every command can end without an error. -/
theorem ok_mem_possibleCodes (i : Instr) : .ok ∈ possibleCodes i := by
  cases i with
  | hexdec strict src dst n => cases strict <;> exact .head _
  | _ => exact .head _

/-- The code of a command that has ended is one of its codes. -/
theorem ExecEffect.exists_possibleCode (h : ExecEffect i s t) (hl : t.latched = none) :
    ∃ e ∈ possibleCodes i, t.err = e.code := by
  cases h with
  | raised e he => exact ⟨e, he, rfl⟩
  | judged k ok hi =>
    subst hi
    cases ok with
    | true => exact ⟨.ok, ok_mem_possibleCodes _, rfl⟩
    | false => exact ⟨.tagMismatch, by simp [possibleCodes], rfl⟩
  | held => exact nomatch hl
  | unanswered k answers hi =>
    subst hi
    exact ⟨.insufficientRandomness, by simp [possibleCodes], rfl⟩
  | stored | expanded | cleared | minted => exact ⟨.ok, ok_mem_possibleCodes i, rfl⟩

/-- Only VALIDATE gives a verdict; every other command leaves RESULT 0 (10_state.md R27). -/
theorem ExecEffect.result_eq_false (h : ExecEffect i s t) (hi : ∀ k, i ≠ .validate k) : t.result = false := by
  cases h with
  | judged k ok hv => exact (hi k hv).elim
  | raised | stored | expanded | cleared | held | unanswered | minted => rfl

/-- RESULT of a VALIDATE is 1 exactly when its code is 0: its errors and TagMismatch have other codes. -/
theorem execValidate_result_iff (h : execValidate k s = .next t) : t.result = true ↔ t.err = 0 := by
  rcases execValidate_next h with ⟨e, he, rfl⟩ | ⟨-, -, sub, jti, tag, -, -, -, rfl⟩
  · have hcode : ∀ e ∈ [ErrCode.badSlot, .keyNotValid], e.code ≠ 0 := by decide
    exact iff_of_false Bool.false_ne_true (hcode e he)
  · cases authentic s.cfg.alphabet (s.slot k).rk sub jti tag with
    | true => exact iff_of_true rfl rfl
    | false => exact iff_of_false Bool.false_ne_true (show ErrCode.tagMismatch.code ≠ 0 by decide)

end

/-! ## The held MINT (60_exceptions.md R236 to R238) -/

section
variable {s : State} {k : Nat} {ident id8 cap : List Byte} {nonce : Nonce} {rest : List EntropyAnswer}

/-- MINT's checks do not look at the agents' moves and answers. -/
theorem MintReady.of_same_block (hr : MintReady s k ident id8 cap) (events : List Event)
    (answers : List EntropyAnswer) : MintReady { s with events := events, entropy := answers } k ident id8 cap := hr

/-- A ready MINT that the source has not answered is held. -/
theorem execMint_unanswered (hr : MintReady s k ident id8 cap) (he : s.entropy = []) :
    execMint k s = .next (s.hold (.mint k)) := by
  rw [hr.execMint_eq, requestEntropy_next]
  exact .inl ⟨he, rfl⟩

theorem coreTurn_held_unanswered (hr : MintReady s k ident id8 cap) (hl : s.latched = some (.mint k))
    (hres : s.result = false) (he : s.entropy = []) : s.coreTurn = .next s := by
  have hturn := (coreTurn_held hl).trans (execMint_unanswered hr he)
  rwa [hold_of_held hl hres] at hturn

theorem coreTurn_held_wait (hr : MintReady s k ident id8 cap) (hl : s.latched = some (.mint k))
    (hres : s.result = false) (he : s.entropy = .wait :: rest) : s.coreTurn = .next { s with entropy := rest } := by
  have hturn := (coreTurn_held hl).trans (execMint_wait hr he)
  rwa [hold_of_held (s := { s with entropy := rest }) hl hres] at hturn

theorem coreTurn_held_bytes (hr : MintReady s k ident id8 cap) (hl : s.latched = some (.mint k))
    (he : s.entropy = .bytes nonce :: rest) : s.coreTurn = .next (((s.requestAnswered rest).writeWm tokAddr
      (mintedToken s.cfg.alphabet (s.slot k).rk id8 cap nonce)).finish .ok false) :=
  (coreTurn_held hl).trans (execMint_bytes hr he)

end

/-! ## Runs of steps -/

section
variable {s t : State} {m : Nat}

/-- A run begins with its first step. -/
theorem runSteps_succ_of_step (h : step s = .next t) : runSteps (m + 1) s = runSteps m t := by
  simp only [runSteps, h]

theorem runSteps_one (s : State) : runSteps 1 s = step s := by
  simp only [runSteps]
  cases step s <;> rfl

/-- A run that has come to `t` goes on with the step from `t`. -/
theorem runSteps_succ_of_runSteps (h : runSteps m s = .next t) : runSteps (m + 1) s = step t := by
  induction m generalizing s with
  | zero =>
    obtain rfl := Host.Outcome.next.inj h
    exact runSteps_one s
  | succ m ih =>
    cases hs : step s with
    | next u =>
      rw [runSteps_succ_of_step hs] at h ⊢
      exact ih h
    | fault f => simp only [runSteps, hs, reduceCtorEq] at h
    | refused r => simp only [runSteps, hs, reduceCtorEq] at h

/-- With no move listed, a held MINT consumes one Wait at each step and changes nothing else. -/
theorem runSteps_held_waits {n k : Nat} {ident id8 cap : List Byte} {rest : List EntropyAnswer}
    (hr : MintReady s k ident id8 cap) (hl : s.latched = some (.mint k)) (hres : s.result = false)
    (hev : s.events = []) (he : s.entropy = List.replicate n .wait ++ rest) :
    runSteps n s = .next { s with entropy := rest } := by
  induction n generalizing s with
  | zero =>
    obtain rfl : s.entropy = rest := he
    rfl
  | succ n ih =>
    have hstep := (step_nil hev).trans (coreTurn_held_wait hr hl hres he)
    rw [runSteps_succ_of_step hstep]
    exact ih (hr.of_same_block s.events _) hl hres hev rfl

end

/-! ## The statements of the family -/

/-- Settles O18: each effect ends with one of the command's codes, and only VALIDATE's verdict sets RESULT. -/
theorem commandsEndWithTheirCodesOnly : Obligations.CommandsEndWithTheirCodesOnly := by
  intro i s t hx hl
  have heff := exec_effect hx
  refine ⟨heff.exists_possibleCode hl, ?_⟩
  by_cases hv : ∃ k, i = .validate k
  · obtain ⟨k, rfl⟩ := hv
    exact (execValidate_result_iff hx).trans (and_iff_right ⟨k, rfl⟩).symm
  · have hres := heff.result_eq_false (not_exists.1 hv)
    exact iff_of_false (by rw [hres]; exact Bool.false_ne_true) fun hend => hv hend.1

/-- Settles O33: the core's turn holds the MINT again as it was, and the reset event leaves none held. -/
theorem heldMintWaitsUnchanged : Obligations.HeldMintWaitsUnchanged := by
  intro s k ident id8 cap rest hr hl hres
  refine ⟨fun hev he => ?_, fun answers hev he => ?_, fun hev => ?_⟩
  · exact (step_cons hev).trans (coreTurn_held_unanswered (hr.of_same_block rest s.entropy) hl hres he)
  · exact (step_cons hev).trans (coreTurn_held_wait (hr.of_same_block rest s.entropy) hl hres he)
  · exact ⟨_, step_cons hev, latched_applyReset _, events_applyReset _⟩

/-- Settles O34: by induction on the Waits the MINT is still held as it was, and its next turn gets the nonce. -/
theorem mintOutlastsAnyNumberOfWaits : Obligations.MintOutlastsAnyNumberOfWaits := by
  intro n s k ident id8 cap nonce rest hr hl hres hev he
  have hwaits := runSteps_held_waits hr hl hres hev he
  have hturn := coreTurn_held_bytes (hr.of_same_block s.events (.bytes nonce :: rest)) hl rfl
  refine ⟨hwaits, _, ((runSteps_succ_of_runSteps hwaits).trans (step_nil hev)).trans hturn, ?_, stored_of_wm_eq ?_⟩
  · rw [finish_writeWm, State.requestAnswered, ErrCode.code, hres]
  · rw [wm_finish, wm_writeWm, wm_requestAnswered, slot_of_same_slots, mintedToken]

/-- Settles O35: an answer that is ignored leaves the block as it is, and one that is taken stands first in the list
when the held command goes on. -/
theorem entropyAnswersReachTheirRequestOnly : Obligations.EntropyAnswersReachTheirRequestOnly := by
  intro s rest n a hev
  rw [step_cons hev, State.move]
  refine ⟨fun hl => answerArrives_ignored (.inl hl), fun hn => answerArrives_ignored (.inr hn),
    fun i hl hn => answerArrives_taken hl hn, fun k ident id8 cap hr hl hn => ?_⟩
  have hready := hr.of_same_block rest (a :: s.entropy)
  rw [answerArrives_taken (s := { s with events := rest }) hl hn]
  cases a with
  | bytes nonce => exact ⟨_, execMint_bytes hready rfl, rfl, rfl, nofun, fun _ => ⟨rfl, rfl⟩⟩
  | wait => exact ⟨_, execMint_wait hready rfl, rfl, rfl, fun _ => ⟨hl.symm, rfl⟩, fun h => (h rfl).elim⟩
  | fail => exact ⟨_, execMint_fail hready rfl, rfl, rfl, nofun, fun _ => ⟨rfl, rfl⟩⟩

end Sys2Proof.Machine
end

section
/-! PROOFS. The family 70_reset_and_hazards.md: reads of unwritten work memory, accesses to a busy block, EXPAND
straight after EXPAND, the number of the outstanding request along a run, and the reset event; and the statements of
the family, settled from these. -/

namespace Sys2Proof.Machine

/-! ## Reads of unwritten work memory (70_reset_and_hazards.md R251) -/

/-- A window whose first byte is unwritten has no bytes to give. -/
theorem Memory.readBytes_eq_none_of_read {m : Memory} {a : Nat} (h : m.read a = none) (n : Nat) :
    m.readBytes a (n + 1) = none := by
  rw [Memory.readBytes, h]

section
variable {s : State} {rest : List Event}

/-- A supported read of an idle block from a window of WM that holds an unwritten byte. -/
theorem step_read_unwritten {w : Width} {off : Offset} (he : s.events = .access (.read w off) :: rest)
    (hs : widthSupported w off = true) (hl : s.latched = none) (hoff : off.toNat < 0x200)
    (hr : s.wm.readBytes off.toNat w.bytes = none) : step s = .fault (.unwrittenRead off.toNat w.bytes) := by
  rw [step_read he hs (.inl hl), hostRead_wm hoff, withBytes_none (s := { s with events := rest }) hr]

/-! ## Accesses to a busy block (70_reset_and_hazards.md R253) -/

/-- STATUS and INFO take 32-bit accesses only (20_memory.md R54). -/
theorem eq_word_of_widthSupported_readable {w : Width} {off : Offset} (hoff : off = statusOffset ∨ off = infoOffset)
    (h : widthSupported w off = true) : w = .word := by
  rcases (widthSupported_iff w off).1 h with ⟨-, hbyte⟩ | ⟨rfl, -⟩
  · rcases hoff with rfl | rfl
    · exact absurd hbyte (by decide)
    · exact absurd hbyte (by decide)
  · rfl

/-- The two supported accesses that a busy block allows. -/
theorem eq_read_of_allowedWhileBusy {a : Access} (hs : a.supported = true) (ha : a.allowedWhileBusy = true) :
    a = .read .word statusOffset ∨ a = .read .word infoOffset := by
  cases a with
  | read w off =>
    have hoff : off = statusOffset ∨ off = infoOffset := by simpa [Access.allowedWhileBusy] using ha
    obtain rfl := eq_word_of_widthSupported_readable hoff hs
    exact hoff.imp (congrArg _) (congrArg _)
  | write w off v => exact (Bool.false_ne_true ha).elim

theorem step_busy_refused {a : Access} (he : s.events = .access a :: rest) (hl : s.latched ≠ none)
    (hs : a.supported = true) (ha : a.allowedWhileBusy = false) : step s = .refused (.busyHazard a) := by
  rw [step_cons he, State.move]
  simp [State.hostAccess, hs, ha, State.busy, Option.isSome_iff_ne_none.2 hl]

end

/-! ## EXPAND straight after EXPAND (70_reset_and_hazards.md R254) -/

section
variable {s t : State} {k : Nat}

/-- An EXPAND that ends without an error leaves KEY zero. -/
theorem execExpand_key_zero (h : execExpand k s = .next t) (he : t.err = 0) :
    t.wm.readBytes keyAddr keyLen = some (List.replicate keyLen 0) := by
  rcases execExpand_next.1 h with ⟨-, key, -, rfl⟩ | ⟨-, rfl⟩
  · exact Memory.readBytes_writeBytes (List.replicate keyLen 0) s.wm keyAddr
  · exact absurd he (show ErrCode.badSlot.code ≠ 0 by decide)

theorem Block.ofBytes_zeros : Block.ofBytes (List.replicate keyLen 0) = Block.zero := rfl

/-- EXPAND of a present slot while KEY is zero. -/
theorem execExpand_of_key_zero (hk : k < s.cfg.numSlots)
    (hkey : s.wm.readBytes keyAddr keyLen = some (List.replicate keyLen 0)) :
    ∃ u, execExpand k s = .next u ∧ u.err = 0 ∧ u.slot k = expandedSlot Block.zero := by
  refine ⟨_, execExpand_eq hk hkey, rfl, ?_⟩
  rw [slot_finish, slot_writeWm, slot_setSlot_same hk, Block.ofBytes_zeros]

end

/-! ## The number of the outstanding request

It never goes down (log entry 6), so an answer to a request that a reset withdrew stays late however far the run goes
(70_reset_and_hazards.md R250). -/

section
variable {s t : State}

theorem ExecEffect.request_le {i : Instr} (h : ExecEffect i s t) : s.request ≤ t.request := by
  cases h with
  | judged k ok _ => rw [verdict_eq, request_finish]
  | unanswered | minted => simp only [request_finish, request_writeWm, request_requestAnswered, Nat.le_add_right]
  | raised | stored | expanded | cleared | held =>
    simp only [request_finish, request_writeWm, request_setSlot, request_hold, Nat.le_refl]

theorem step_request_le (h : step s = .next t) : s.request ≤ t.request := by
  cases step_effect h with
  | command w i rest t hl he hd hx => exact (exec_effect hx).request_le
  | resumed i events answers t hl hx => exact (exec_effect hx).request_le
  | reset => exact Nat.le_succ s.request
  | quiet | hostStored | illegal => exact Nat.le_refl s.request

theorem runSteps_request_le {m : Nat} (h : runSteps m s = .next t) : s.request ≤ t.request := by
  induction m generalizing s with
  | zero =>
    obtain rfl := Host.Outcome.next.inj h
    exact Nat.le_refl _
  | succ m ih =>
    cases hs : step s with
    | next u =>
      rw [runSteps_succ_of_step hs] at h
      exact (step_request_le hs).trans (ih h)
    | fault f => simp only [runSteps, hs, reduceCtorEq] at h
    | refused r => simp only [runSteps, hs, reduceCtorEq] at h

/-- An answer to a request with a smaller number than the outstanding one changes nothing. -/
theorem step_late_answer {rest : List Event} {n : Nat} {a : EntropyAnswer}
    (he : s.events = .entropyAnswer n a :: rest) (hn : n < s.request) : step s = .next { s with events := rest } :=
  (step_cons he).trans (answerArrives_ignored (.inr hn.ne))

/-! ## The reset event (70_reset_and_hazards.md R250) -/

theorem step_reset {rest : List Event} (he : s.events = .reset :: rest) :
    step s = .next (State.applyReset { s with events := rest }) := step_cons he

theorem keyv_applyReset (s : State) (k : Nat) : s.applyReset.keyv k = false := by
  simp [State.keyv, KeySlot.empty]

end

/-! ## The statements of the family -/

/-- Settles O42: the access is supported, and its window has an unwritten byte. -/
theorem unwrittenHostReadsFault : Obligations.UnwrittenHostReadsFault := by
  intro s rest off hl hoff
  refine ⟨fun he hr => ?_, fun he h4 hr => ?_⟩
  · exact step_read_unwritten he ((widthSupported_iff _ _).2 (.inl ⟨rfl, .inl hoff⟩)) hl hoff
      (Memory.readBytes_eq_none_of_read hr 0)
  · exact step_read_unwritten he ((widthSupported_iff _ _).2 (.inr ⟨rfl, h4⟩)) hl hoff hr

/-- Settles O39: of the supported accesses only the 32-bit reads of STATUS and INFO are allowed while BUSY = 1. -/
theorem busyBlockRefusesOtherAccesses : Obligations.BusyBlockRefusesOtherAccesses := by
  intro s rest a he hl
  refine ⟨?_, ?_, fun hs hstatus hinfo => ?_⟩
  · rintro rfl
    rw [step_read_register (off := statusOffset) he (by decide) (.inr (.inl rfl)) (by decide), registerValue_status]
  · rintro rfl
    rw [step_read_register (off := infoOffset) he (by decide) (.inr (.inr rfl)) (by decide), registerValue_info]
  · exact step_busy_refused he hl hs <| Bool.eq_false_iff.2 fun ha =>
      (eq_read_of_allowedWhileBusy hs ha).elim hstatus hinfo

/-- Settles O21: the first EXPAND leaves KEY zero and the parameters as they are, so the second one expands zero. -/
theorem secondExpandExpandsTheZeroKey : Obligations.SecondExpandExpandsTheZeroKey := by
  intro s t k k' h he hk'
  have hkey := execExpand_key_zero h he
  exact ⟨hkey, execExpand_of_key_zero ((exec_effect h).cfg_eq.symm ▸ hk') hkey⟩

/-- Settles O47: the reset event gives each field its reset value and withdraws the request; from then on every
request has a greater number than the ones made before. -/
theorem resetEventRestoresTheResetValues : Obligations.ResetEventRestoresTheResetValues := by
  refine fun s rest => ⟨fun he => ?_, fun t u m n a rest' he hstep hrun hev hn => ?_⟩
  · refine ⟨_, step_reset he, rfl, rfl, rfl, rfl, rfl, keyv_applyReset _, slot_applyReset _, fun hw b => ?_,
      fun hw b hb => ?_, fun hw => ?_⟩
    · rw [wm_applyReset, hw]
      rfl
    · rw [wm_applyReset, hw]
      exact read_powerOn_zero hb
    · rw [wm_applyReset, hw]
      rfl
  · obtain rfl := Host.Outcome.next.inj ((step_reset he).symm.trans hstep)
    have hlater : s.request + 1 ≤ u.request := runSteps_request_le hrun
    exact step_late_answer hev (by omega)

end Sys2Proof.Machine
end
